-- ==== Sys2Proof/Word.lean ====
section
/-! DEFINITION. The value types of the block: 32-bit words, 8-bit bytes and the 64-bit length (R6, R8). -/

namespace Sys2Proof

/-- A 32-bit word: state words, schedule words, round constants, working variables, port data (R6, R7). -/
abbrev Word := BitVec 32

/-- One message or buffer byte (R6). -/
abbrev Byte := BitVec 8

/-- The 64-bit message-bit count and the length field of the padding (R6, R25). -/
abbrev Length := BitVec 64

/-- A word index on the host port, 0..15 (R50, R52). -/
abbrev RegIndex := BitVec 4

end Sys2Proof
end

