-- ==== Sys2Proof/Syntax.lean ====
section
/-! DEFINITION. The command set: one constructor per row of spec/opcode_table.json (R84). -/

namespace Sys2Proof

/-- The commands a host issues by writing CTRL (R84, R86). The message bytes of WRITE are not in the command: they
are taken from DIN (R83). -/
inductive Instr where
  /-- NOP (R190). -/
  | nop
  /-- INIT (R191). -/
  | init
  /-- WRITE of `nb` bytes from DIN; the spec gives `nb` = 1..4 (R82, R150). -/
  | write (nb : Nat)
  /-- CLOSE (R170). -/
  | close
deriving DecidableEq, Repr

end Sys2Proof
end

