-- ==== Sys2Proof/WellFormed.lean ====
section
/-! DEFINITION. Which terms of `Instr` are commands of the block (R82, R89). -/

namespace Sys2Proof

/-- A command the encoding can express: the byte count of WRITE is 1..4 (R82); `WRITE n` with another `n` does not
assemble (R89), and NOP, INIT and CLOSE have no operand (R83). -/
def Instr.wellFormed : Instr → Bool
  | .nop => true
  | .init => true
  | .write nb => decide (1 ≤ nb ∧ nb ≤ 4)
  | .close => true

end Sys2Proof
end

