-- ==== Sys2Proof/Decode.lean ====
section
/-! DEFINITION. The command word format CMD (R81): its fields, the decoder (R85, R86), the encoder (R84), and the
table-word form of the decoder. -/

namespace Sys2Proof

/-- Field OP, bits 3:0 (R81). -/
def opField (v : Word) : BitVec 4 := v.extractLsb' 0 4

/-- Field NBM1, bits 5:4 (R81). -/
def nbm1Field (v : Word) : BitVec 2 := v.extractLsb' 4 2

/-- Field RSV, bits 31:6 (R81). -/
def rsvField (v : Word) : BitVec 26 := v.extractLsb' 6 26

/-- Legality of a command word, R85 as it stands. -/
def legal (v : Word) : Bool :=
  decide (rsvField v = 0) && decide ((opField v).toNat ≤ 3) && (decide (opField v = 2) || decide (nbm1Field v = 0))

/-- Why a CTRL value is no command (R203, ILLEGAL_CMD): the three ways a word can be illegal. -/
inductive DecodeError where
  /-- A bit of RSV, 31:6, is set. -/
  | reservedBitSet
  /-- OP is 4..15. -/
  | illegalOp
  /-- NBM1 is not 0 and OP is 0, 1 or 3. -/
  | strayByteCount
deriving DecidableEq, Repr

/-- The decoder: total, every 32-bit value is one of the seven legal words or is rejected by name (R86, R87). -/
def decode (v : Word) : Except DecodeError Instr :=
  if rsvField v ≠ 0 then .error .reservedBitSet
  else if 3 < (opField v).toNat then .error .illegalOp
  else if opField v = 2 then .ok (.write ((nbm1Field v).toNat + 1))
  else if nbm1Field v ≠ 0 then .error .strayByteCount
  else if opField v = 0 then .ok .nop
  else if opField v = 1 then .ok .init
  else .ok .close

/-- A command word from its fields, RSV being 0 (R81). -/
def cmdWord (op : BitVec 4) (nbm1 : BitVec 2) : Word :=
  (nbm1.setWidth 32 <<< 4) ||| op.setWidth 32

/-- The encoder, from the table of R84; NBM1 = nb - 1 (R82, R150). -/
def encode : Instr → Word
  | .nop => cmdWord 0 0
  | .init => cmdWord 1 0
  | .write nb => cmdWord 2 (BitVec.ofNat 2 (nb - 1))
  | .close => cmdWord 3 0

/-- The 32-bit command word whose low `nbits` bits are those of `w`, every bit above being 0. A command is one
32-bit value on the port and not bytes in a memory (R80), so bit 0 here is bit 0 of CTRL. -/
def tableWord (nbits w : Nat) : Word := BitVec.ofNat 32 (w % 2 ^ nbits)

/-- The command the decoder reads from an opcode-table word. -/
def decodeTableWord (nbits w : Nat) : Option Instr :=
  match decode (tableWord nbits w) with
  | .ok i => some i
  | .error _ => none

end Sys2Proof
end

