-- ==== Sys2Proof/Machine/Operands.lean ====
section
/-! DEFINITION. Byte order and operand forms: words from bytes and bytes from words, all big-endian (R9, R61), the
bytes a WRITE takes from DIN (R151), the length field (R173) and the digest bytes (R178). -/

namespace Sys2Proof.Machine

/-- The word built from the bytes `b0 b1 b2 b3`, `b0` first in the stream (R9). -/
def wordOfBytes (b0 b1 b2 b3 : Byte) : Word :=
  (b0.setWidth 32 <<< 24) ||| (b1.setWidth 32 <<< 16) ||| (b2.setWidth 32 <<< 8) ||| b3.setWidth 32

/-- Byte `j` = 0..3 of a word in stream order: bits `31-8j : 24-8j` (R9). -/
def byteOfWord (w : Word) (j : Nat) : Byte := w.extractLsb' (24 - 8 * j) 8

/-- The `nb` message bytes a WRITE takes from DIN, most significant first (R83, R151). -/
def messageBytes (din : Word) (nb : Nat) : List Byte := (List.range nb).map (byteOfWord din)

/-- The 8 bytes of the length field, most significant first (R173). -/
def lengthBytes (L : Length) : List Byte := (List.range 8).map fun j => L.extractLsb' (56 - 8 * j) 8

/-- The 32 digest bytes: the state words in order, each as 4 big-endian bytes (R178). -/
def digestBytes (H : Vector Word 8) : List Byte := H.toList.flatMap fun w => (List.range 4).map (byteOfWord w)

end Sys2Proof.Machine
end

