-- ==== Sys2Proof/Machine/Round.lean ====
section
/-! DEFINITION. The sub-block sha256_round_function: the bit-level functions and one round (R100 to R107). -/

namespace Sys2Proof.Machine

/-- ROTR, circular right rotation (R10, R100). -/
def rotr (x : Word) (n : Nat) : Word := (x >>> n) ||| (x <<< (32 - n))

/-- SHR, logical right shift (R10, R101). -/
def shr (x : Word) (n : Nat) : Word := x >>> n

/-- CH, choose (R102). -/
def ch (e f g : Word) : Word := (e &&& f) ^^^ (~~~e &&& g)

/-- MAJ, majority (R103). -/
def maj (a b c : Word) : Word := (a &&& b) ^^^ (a &&& c) ^^^ (b &&& c)

/-- BSIG0, the round-mixing function Σ0 (R104). -/
def bsig0 (a : Word) : Word := rotr a 2 ^^^ rotr a 13 ^^^ rotr a 22

/-- BSIG1, the round-mixing function Σ1 (R105). -/
def bsig1 (e : Word) : Word := rotr e 6 ^^^ rotr e 11 ^^^ rotr e 25

/-- The eight working variables (R38, R106). -/
structure Working where
  a : Word
  b : Word
  c : Word
  d : Word
  e : Word
  f : Word
  g : Word
  h : Word
deriving DecidableEq, Repr

/-- T1 of a round (R106). -/
def roundT1 (v : Working) (k w : Word) : Word := v.h + bsig1 v.e + ch v.e v.f v.g + k + w

/-- T2 of a round (R106). -/
def roundT2 (v : Working) : Word := bsig0 v.a + maj v.a v.b v.c

/-- One of the 64 rounds, with round constant `k` and schedule word `w` (R106). -/
def shaRound (v : Working) (k w : Word) : Working where
  a := roundT1 v k w + roundT2 v
  b := v.a
  c := v.b
  d := v.c
  e := v.d + roundT1 v k w
  f := v.e
  g := v.f
  h := v.g

/-- The inverse of one round, which no rule of the hardware uses: it is stated for proofs (R107). -/
def shaRoundInverse (v' : Working) (k w : Word) : Working :=
  let t2 := bsig0 v'.b + maj v'.b v'.c v'.d
  let t1 := v'.a - t2
  { a := v'.b, b := v'.c, c := v'.d, d := v'.e - t1,
    e := v'.f, f := v'.g, g := v'.h, h := t1 - bsig1 v'.f - ch v'.f v'.g v'.h - k - w }

end Sys2Proof.Machine
end

