-- ==== Sys2Proof/Machine/Schedule.lean ====
section
/-! DEFINITION. The sub-block message_schedule_expander: 16 block words to 64 schedule words (R120 to R124). -/

namespace Sys2Proof.Machine

/-- Block word `M[j]`, big-endian (R120). -/
def blockWord (B : Vector Byte 64) (j : Fin 16) : Word :=
  wordOfBytes B[4 * j.val] B[4 * j.val + 1] B[4 * j.val + 2] B[4 * j.val + 3]

/-- BlockWords: `M[0..15]` (R120). -/
def blockWords (B : Vector Byte 64) : List Word := List.ofFn (blockWord B)

/-- SSIG0, the schedule mixing function σ0 (R121). -/
def ssig0 (x : Word) : Word := rotr x 7 ^^^ rotr x 18 ^^^ shr x 3

/-- SSIG1, the schedule mixing function σ1 (R122). -/
def ssig1 (x : Word) : Word := rotr x 17 ^^^ rotr x 19 ^^^ shr x 10

/-- The schedule word that follows the words `W[0..i-1]`, with `i` their number, at least 16 (R123). -/
def nextScheduleWord (W : List Word) : Word :=
  ssig1 (W.getD (W.length - 2) 0) + W.getD (W.length - 7) 0
    + ssig0 (W.getD (W.length - 15) 0) + W.getD (W.length - 16) 0

/-- A schedule extended by `n` further words (R123). -/
def extendSchedule : Nat → List Word → List Word
  | 0, W => W
  | n + 1, W => extendSchedule n (W ++ [nextScheduleWord W])

/-- Schedule: `W[0..63]` of one block (R123). -/
def schedule (B : Vector Byte 64) : List Word := extendSchedule 48 (blockWords B)

/-- The windowed organisation of R124: from a window of 16 words, the next `n` schedule words, each leaving the
window as the word that follows its last one enters. -/
def windowedSchedule : Nat → List Word → List Word
  | 0, _ => []
  | n + 1, win => win.getD 0 0 :: windowedSchedule n (win.drop 1 ++ [nextScheduleWord win])

end Sys2Proof.Machine
end

