-- ==== Sys2Proof/Machine/Compress.lean ====
section
/-! DEFINITION. The sub-block compress_64rounds: the constant tables and the block transform (R130 to R137). The
values of `K` and `IV` and the round equations are the spec's rules, which the spec marks as supplied from FIPS 180-4
(93_implementation_defined.md G1 to G6). -/

namespace Sys2Proof.Machine

/-- The round constants `K[0..63]` (R131). -/
def roundConstants : List Word :=
  [0x428A2F98, 0x71374491, 0xB5C0FBCF, 0xE9B5DBA5, 0x3956C25B, 0x59F111F1, 0x923F82A4, 0xAB1C5ED5] ++
  [0xD807AA98, 0x12835B01, 0x243185BE, 0x550C7DC3, 0x72BE5D74, 0x80DEB1FE, 0x9BDC06A7, 0xC19BF174] ++
  [0xE49B69C1, 0xEFBE4786, 0x0FC19DC6, 0x240CA1CC, 0x2DE92C6F, 0x4A7484AA, 0x5CB0A9DC, 0x76F988DA] ++
  [0x983E5152, 0xA831C66D, 0xB00327C8, 0xBF597FC7, 0xC6E00BF3, 0xD5A79147, 0x06CA6351, 0x14292967] ++
  [0x27B70A85, 0x2E1B2138, 0x4D2C6DFC, 0x53380D13, 0x650A7354, 0x766A0ABB, 0x81C2C92E, 0x92722C85] ++
  [0xA2BFE8A1, 0xA81A664B, 0xC24B8B70, 0xC76C51A3, 0xD192E819, 0xD6990624, 0xF40E3585, 0x106AA070] ++
  [0x19A4C116, 0x1E376C08, 0x2748774C, 0x34B0BCB5, 0x391C0CB3, 0x4ED8AA4A, 0x5B9CCA4F, 0x682E6FF3] ++
  [0x748F82EE, 0x78A5636F, 0x84C87814, 0x8CC70208, 0x90BEFFFA, 0xA4506CEB, 0xBEF9A3F7, 0xC67178F2]

/-- The initial state words `IV[0..7]` (R132). -/
def initialWords : Vector Word 8 :=
  #v[0x6A09E667, 0xBB67AE85, 0x3C6EF372, 0xA54FF53A, 0x510E527F, 0x9B05688C, 0x1F83D9AB, 0x5BE0CD19]

/-- The working variables at round 0: the state words (R135). -/
def loadWorking (H : Vector Word 8) : Working :=
  { a := H[0], b := H[1], c := H[2], d := H[3], e := H[4], f := H[5], g := H[6], h := H[7] }

/-- Rounds in order, one for each pair of a round constant and a schedule word (R135). -/
def runRounds : Working → List (Word × Word) → Working
  | v, [] => v
  | v, kw :: rest => runRounds (shaRound v kw.1 kw.2) rest

/-- The feed-forward: each state word incremented by its working variable, modulo 2^32 (R135). -/
def addWorking (H : Vector Word 8) (v : Working) : Vector Word 8 :=
  #v[H[0] + v.a, H[1] + v.b, H[2] + v.c, H[3] + v.d, H[4] + v.e, H[5] + v.f, H[6] + v.g, H[7] + v.h]

/-- Compress, as a function of the state words and the block alone (R135, R136). -/
@[irreducible] def compress (H : Vector Word 8) (B : Vector Byte 64) : Vector Word 8 :=
  addWorking H (runRounds (loadWorking H) (roundConstants.zip (schedule B)))

/-- Compress on the windowed schedule (R124). -/
def compressWindowed (H : Vector Word 8) (B : Vector Byte 64) : Vector Word 8 :=
  addWorking H (runRounds (loadWorking H) (roundConstants.zip (windowedSchedule 64 (blockWords B))))

end Sys2Proof.Machine
end

