-- ==== Sys2Proof/Config.lean ====
section
/-! DEFINITION. What the spec leaves to the implementation (R7), each as an opaque constant: no claim can rest on a value of it. -/

namespace Sys2Proof

/-- The free timing of the core agent, the parameter `BUSY_OBSERVED` (R7, R246, decision D11). The `k`-th step of
the core agent happens after at most `coreDelay k` further STATUS reads of the host. Every value is finite, which is
the weak fairness of R245; nothing else is known of it. UNVERIFIED timing; notes/assumptions/2.md. -/
opaque Config.coreDelay : Nat → Nat

/-- `COMPRESS_CYCLES` (R7, R137, R248): the clock cycles one compression takes. No rule depends on it, and nothing
in the model reads it; notes/assumptions/7.md. -/
opaque Config.compressCycles : Nat

/-- `SHA_BASE` (R7, R51): the host byte address of word index 0. The block decodes only the word index. -/
opaque Config.shaBase : Nat

end Sys2Proof
end

