-- ==== Sys2Proof/Machine/State.lean ====
section
/-! DEFINITION. The machine's state as plain data, its reasons to stop, and the state after reset (R20, R39, R41). -/

namespace Sys2Proof.Machine

/-- The lifecycle phase (R27); its 2-bit code is `Phase.code`. -/
inductive Phase where
  /-- 0: after reset, no INIT yet. -/
  | uninit
  /-- 1: after INIT, no message byte written yet. -/
  | initialized
  /-- 2: at least one WRITE accepted since INIT. -/
  | accumulating
  /-- 3: CLOSE done. -/
  | finalized
deriving DecidableEq, Repr

/-- The sticky error codes (R29, R200). Codes 5..7 are never produced, so they have no constructor. -/
inductive ErrorCode where
  /-- 0: no error since the last INIT or reset. -/
  | none
  /-- 1: WRITE or CLOSE in phase UNINIT or FINALIZED. -/
  | invalidState
  /-- 2: a CTRL write that is no legal command word. -/
  | illegalCmd
  /-- 3: a WRITE that would make `length` exceed 2^64 - 1. -/
  | lengthOverflow
  /-- 4: a write to a read-only or reserved index. -/
  | accessError
deriving DecidableEq, Repr

/-- One access on the host port, the first format of R80: word index, write enable, write data (R52). A read does
not use `wdata`. -/
structure PortAccess where
  idx : RegIndex
  we : Bool
  wdata : Word
deriving DecidableEq, Repr

/-- What the outside world does next to the block. DESIGN CHOICE: the host's remaining accesses stand in the state
as a list (notes/assumptions/1.md). -/
inductive HostEvent where
  /-- One port access (R52). -/
  | access (a : PortAccess)
  /-- An access that reaches the host bus bridge with a byte address and a width in bits (R52); the bridge presents
  it to the port or, where it must refuse it, what it does is not specified (notes/assumptions/6.md). -/
  | bridged (byteAddr : Nat) (bits : Nat) (we : Bool) (wdata : Word)
  /-- The host loop WAIT: STATUS reads until bit 0 is 0 (R90). -/
  | waitIdle
  /-- The reset input is asserted (R240), with the access in progress at that moment, if there is one: that access
  has no effect. -/
  | reset (inProgress : Option PortAccess)
deriving DecidableEq, Repr

/-- The value one read returned, with the index it read (R52 `rdata`). -/
structure ReadResult where
  idx : RegIndex
  data : Word
deriving DecidableEq, Repr

/-- Reasons a step can stop with a fault. There are none, so the type is empty: an error is a recorded value of `err` and the
block goes on (R201, R205). Nobody raises one; safe. -/
inductive Fault where
deriving DecidableEq, Repr

/-- Reasons a step can be refused. -/
inductive Refusal where
  /-- An instruction that has no meaning yet, by its mnemonic in the opcode table. Raised by an arm of `exec`
  only, and by none at present. Safe. -/
  | notModelled (mnemonic : String)
  /-- Raised by `execWrite` for a term `write nb` with `nb` outside 1..4: no command word encodes it (R82), so no
  step reaches it. Safe. -/
  | byteCountOutOfRange
  /-- Raised by `step` for a bridged access that is misaligned or is not 32 bits wide: what the bridge does with it
  is the open parameter BRIDGE_MISALIGNED (R52), and a model of the whole platform must refuse it (U13). Safe. -/
  | bridgeAccessUnspecified
deriving DecidableEq, Repr

/-- The machine: the architectural state of R20, with `busy` held as the count `pend` of R39, and below it the
model's own record of the host side (notes/assumptions/1.md, notes/assumptions/2.md). -/
@[ext]
structure State where
  /-- `H[0..7]`, read as DIGEST0..7 (R21). -/
  H : Vector Word 8
  /-- `buf[0..63]`, the staging buffer (R23). -/
  buf : Vector Byte 64
  /-- `curlen`, the number of valid bytes in `buf`, 0..63 (R24). -/
  curlen : BitVec 6
  /-- `length`, the message bits written since INIT (R25). -/
  length : Length
  /-- `phase` (R27). -/
  phase : Phase
  /-- `err` (R29). -/
  err : ErrorCode
  /-- `pend`, the compressions started and not yet completed; `busy` is `pend ≠ 0` (R31, R39). -/
  pend : Nat
  /-- `din`, the data-input register (R30). -/
  din : Word
  /-- The model's own: what the host and the reset input do from here on, in issue order (R64). -/
  host : List HostEvent
  /-- The model's own: the values reads have returned, the latest first. -/
  returned : List ReadResult
  /-- The model's own: STATUS reads performed since the core agent's latest step, while it had one to take. -/
  waits : Nat
  /-- The model's own: how many values of the free timing `Config.coreDelay` have been used up. -/
  draws : Nat
deriving DecidableEq, Repr

/-- The state after reset: every element of R20 at its value of R41. The host side is the model's own: nothing
issued, nothing returned, no timing drawn (DESIGN CHOICE, notes/assumptions/2.md and notes/assumptions/4.md). -/
def State.reset : State where
  H := #v[0, 0, 0, 0, 0, 0, 0, 0]
  buf := Vector.replicate 64 0
  curlen := 0
  length := 0
  phase := .uninit
  err := .none
  pend := 0
  din := 0
  host := []
  returned := []
  waits := 0
  draws := 0

/-- `busy` (R31, R39). -/
def State.busy (s : State) : Bool := decide (s.pend ≠ 0)

end Sys2Proof.Machine
end

