-- ==== Sys2Proof/Machine/Flags.lean ====
section
/-! DEFINITION. The STATUS word and its fields, the only flags the block has (R33, R40), and the two halves of the
length (R35). -/

namespace Sys2Proof.Machine

/-- The 2-bit value of `phase` (R27). -/
def Phase.code : Phase → BitVec 2
  | .uninit => 0
  | .initialized => 1
  | .accumulating => 2
  | .finalized => 3

/-- The 3-bit value of `err` (R200). -/
def ErrorCode.code : ErrorCode → BitVec 3
  | .none => 0
  | .invalidState => 1
  | .illegalCmd => 2
  | .lengthOverflow => 3
  | .accessError => 4

/-- The value a STATUS read returns (R33). -/
def State.status (s : State) : Word :=
  (s.curlen.setWidth 32 <<< 8) ||| (s.err.code.setWidth 32 <<< 4) ||| (s.phase.code.setWidth 32 <<< 1)
    ||| (BitVec.ofBool s.busy).setWidth 32

/-- LEN_LO: `length[31:0]` (R35). -/
def State.lenLo (s : State) : Word := s.length.extractLsb' 0 32

/-- LEN_HI: `length[63:32]` (R35). -/
def State.lenHi (s : State) : Word := s.length.extractLsb' 32 32

/-- WRITE and CLOSE are valid in INITIALIZED and ACCUMULATING (R28). -/
def Phase.acceptsData : Phase → Bool
  | .uninit => false
  | .initialized => true
  | .accumulating => true
  | .finalized => false

end Sys2Proof.Machine
end

