-- ==== Sys2Proof/Machine/Ops.lean ====
section
/-! DEFINITION. The named operations the commands share: raising and clearing an error (the block's whole exception
mechanism, R201, R205, R206), compressing the buffer, absorbing bytes (R152) and padding (R172). -/

namespace Sys2Proof.Machine

/-- `raise Error(code)`: the first error is kept, and nothing else changes (R201). This is all that taking an
exception is on this block: no state is saved, no mode changes and control goes nowhere (R205). -/
def State.raiseError (s : State) (code : ErrorCode) : State :=
  if s.err = .none then { s with err := code } else s

/-- Clearing the error, the block's only return from one; INIT does it (R191, R206). -/
def State.clearError (s : State) : State := { s with err := .none }

/-- Compress applied to the state: `H` from the whole buffer, and one more compression outstanding (R135, R39). -/
def State.compressBuffer (s : State) : State := { s with H := compress s.H s.buf, pend := s.pend + 1 }

/-- A byte stored at `buf[curlen]` (R152). -/
def State.storeByte (s : State) (b : Byte) : State :=
  { s with buf := s.buf.set s.curlen.toNat b s.curlen.isLt }

/-- `absorb(b)`: store the byte, advance `curlen`, and when the buffer is full compress it and start again at 0;
`length` is not touched (R152). -/
def State.absorb (s : State) (b : Byte) : State :=
  if s.curlen.toNat + 1 = 64 then { (s.storeByte b).compressBuffer with curlen := 0 }
  else { s.storeByte b with curlen := s.curlen + 1 }

/-- Bytes absorbed in order. -/
def State.absorbAll : State → List Byte → State
  | s, [] => s
  | s, b :: bs => (s.absorb b).absorbAll bs

/-- Message bytes absorbed in order, `length` counting 8 bits for each (R150, R155). -/
def State.absorbMessage : State → List Byte → State
  | s, [] => s
  | s, b :: bs => State.absorbMessage { s.absorb b with length := s.length + 8 } bs

/-- Step 3 of the padding: zero bytes until `curlen` is 56, with a bound on their number (R172). -/
def State.padZeros : Nat → State → State
  | 0, s => s
  | n + 1, s => if s.curlen = 56 then s else State.padZeros n (s.absorb 0x00)

/-- `Pad(L)`: 0x80, zero bytes until `curlen` is 56 (at most 63 of them), then `L` as 8 bytes (R172, R173). -/
@[irreducible] def State.pad (s : State) (L : Length) : State :=
  (State.padZeros 63 (s.absorb 0x80)).absorbAll (lengthBytes L)

end Sys2Proof.Machine
end

