-- ==== Sys2Proof/Machine/Control.lean ====
section
/-! DEFINITION. The control commands NOP and INIT (R190, R191). -/

namespace Sys2Proof.Machine

/-- NOP: nothing, in any phase and with any `err` (R190). -/
def execNop (s : State) : Host.Outcome State Fault Refusal := .next s

/-- INIT: a new digest, from any phase and with any `err`, which it clears; `din` is not changed (R191). -/
def execInit (s : State) : Host.Outcome State Fault Refusal :=
  .next { s.clearError with
    H := initialWords
    buf := Vector.replicate 64 0
    curlen := 0
    length := 0
    phase := .initialized }

end Sys2Proof.Machine
end

