-- ==== Sys2Proof/Machine/Finalize.lean ====
section
/-! DEFINITION. The sub-block padding_and_finalize: the command CLOSE (R170 to R179). -/

namespace Sys2Proof.Machine

/-- CLOSE: its checks in the order of R202, then the padding of the length as it was before any padding byte
(R170, R171). -/
def execClose (s : State) : Host.Outcome State Fault Refusal :=
  if s.err ≠ .none then .next s
  else if s.phase.acceptsData = false then .next (s.raiseError .invalidState)
  else .next { s.pad s.length with phase := .finalized }

end Sys2Proof.Machine
end

