-- ==== Sys2Proof/Machine/Streaming.lean ====
section
/-! DEFINITION. The sub-block streaming_input_buffer: the command WRITE (R150 to R158). -/

namespace Sys2Proof.Machine

/-- The `nb` bytes of a WRITE do not fit the 64-bit bit count (R157). -/
def State.lengthWouldOverflow (s : State) (nb : Nat) : Bool := decide (2 ^ 64 - 1 < s.length.toNat + 8 * nb)

/-- WRITE of `nb` bytes from DIN: its checks in the order of R202, each before any byte is absorbed, then the bytes
(R150). A byte count outside 1..4 is no command (R82). -/
def execWrite (nb : Nat) (s : State) : Host.Outcome State Fault Refusal :=
  if ¬ (1 ≤ nb ∧ nb ≤ 4) then .refused .byteCountOutOfRange
  else if s.err ≠ .none then .next s
  else if s.phase.acceptsData = false then .next (s.raiseError .invalidState)
  else if s.lengthWouldOverflow nb = true then .next (s.raiseError .lengthOverflow)
  else .next { s.absorbMessage (messageBytes s.din nb) with phase := .accumulating }

end Sys2Proof.Machine
end

