-- ==== Sys2Proof/Machine/Port.lean ====
section
/-! DEFINITION. The host port (R50 to R60), the bus bridge before it (R52), the core agent (R39), reset (R240), and
the step of the machine with its holds (R245). -/

namespace Sys2Proof.Machine

/-- `Command(v)`: a write of `v` to CTRL (R86). An illegal word raises ILLEGAL_CMD and does nothing else (R87). -/
def command (v : Word) (s : State) : Host.Outcome State Fault Refusal :=
  match decode v with
  | .ok i => exec i s
  | .error _ => .next (s.raiseError .illegalCmd)

/-- `BusRead(idx)`: the value a read returns (R54). CTRL and the reserved indexes 3, 6 and 7 read 0. -/
def busRead (idx : RegIndex) (s : State) : Word :=
  if idx = 1 then s.status
  else if idx = 2 then s.din
  else if idx = 4 then s.lenLo
  else if idx = 5 then s.lenHi
  else if 8 ≤ idx.toNat then s.H[idx.toNat - 8]'(by have := idx.isLt; omega)
  else 0

/-- `BusWrite(idx, v)` (R57, R58, R59). -/
def busWrite (idx : RegIndex) (v : Word) (s : State) : Host.Outcome State Fault Refusal :=
  if idx = 0 then command v s
  else if idx = 2 then .next { s with din := v }
  else .next (s.raiseError .accessError)

/-- One port access performed: a write has the effect of R57, a read returns its value and changes nothing of the
block (R54, R55). -/
def perform (a : PortAccess) (s : State) : Host.Outcome State Fault Refusal :=
  if a.we then busWrite a.idx a.wdata s
  else .next { s with returned := { idx := a.idx, data := busRead a.idx s } :: s.returned }

/-- Accesses performed one after another, each complete before the next (R64), with no regard to holds: what the
accesses do, apart from when. -/
def performAll : List PortAccess → State → Host.Outcome State Fault Refusal
  | [], s => .next s
  | a :: rest, s =>
    match perform a s with
    | .next t => performAll rest t
    | .fault r => .fault r
    | .refused r => .refused r

/-- A read of STATUS, the one access that never holds (R245). -/
def statusRead : PortAccess := { idx := 1, we := false, wdata := 0 }

/-- The access is a read of STATUS (R245). -/
def PortAccess.readsStatus (a : PortAccess) : Bool := !a.we && decide (a.idx = 1)

/-- The port access a host bus bridge presents for a byte address and a width: word index `A[5:2]`; none where the
bridge must refuse it, `A[1:0]` not 0 or a width other than 32 (R52). -/
def bridgeAccess (byteAddr bits : Nat) (we : Bool) (wdata : Word) : Option PortAccess :=
  if byteAddr % 4 = 0 ∧ bits = 32 then some { idx := BitVec.ofNat 4 (byteAddr / 4), we := we, wdata := wdata } else none

/-- The host byte address of a word index in a map at `base`: its byte offset is `4 * idx` (R51). -/
def addressAt (base : Nat) (idx : RegIndex) : Nat := base + 4 * idx.toNat

/-- The host byte address of a word index: the platform maps the block at SHA_BASE (R51, R242). -/
def hostAddress (idx : RegIndex) : Nat := addressAt Config.shaBase idx

/-- One step of the core agent: one outstanding compression completes (R39); a new value of the free timing is in
force. -/
def State.coreStep (s : State) : State :=
  { s with pend := s.pend - 1, waits := 0, draws := s.draws + 1 }

/-- The free timing lets a STATUS read go before the core agent's next step (R246). -/
def State.statusReadFirst (s : State) : Bool := decide (s.waits < Config.coreDelay s.draws)

/-- A STATUS read went before the core agent's step. -/
def State.countWait (s : State) : State := { s with waits := s.waits + 1 }

/-- The reset input asserted: every element of R20 at its reset value, compressions in progress abandoned (R240,
R41). What the host does next and what it has read are not the block's, and stay (notes/assumptions/5.md). -/
def State.resetBlock (s : State) : State :=
  { State.reset with host := s.host, returned := s.returned, draws := s.draws + 1 }

/-- A port access at the head of the host's accesses, with the rest of them: while `busy` it is held, and the core
agent steps, except that a STATUS read may be performed first, as the free timing has it (R245, R246). -/
def serveAccess (a : PortAccess) (rest : List HostEvent) (s : State) : Host.Outcome State Fault Refusal :=
  if s.pend = 0 then perform a { s with host := rest }
  else if a.readsStatus = true ∧ s.statusReadFirst = true then perform a { s.countWait with host := rest }
  else .next s.coreStep

/-- The host loop WAIT at the head: a STATUS read, and the loop again while it returned BUSY = 1 (R90). -/
def serveWait (rest : List HostEvent) (s : State) : Host.Outcome State Fault Refusal :=
  if s.pend = 0 then perform statusRead { s with host := rest }
  else if s.statusReadFirst = true then perform statusRead s.countWait
  else .next s.coreStep

/-- One step. The host's next event is served in issue order (R64); with no event left the core agent finishes its
compressions, and then the block is idle until the host acts (R215, R241). -/
def hostStep (s : State) : Host.Outcome State Fault Refusal :=
  match s.host with
  | [] => if s.pend = 0 then .next s else .next s.coreStep
  | .access a :: rest => serveAccess a rest s
  | .bridged byteAddr bits we wdata :: rest =>
    match bridgeAccess byteAddr bits we wdata with
    | some a => serveAccess a rest s
    | none => .refused .bridgeAccessUnspecified
  | .waitIdle :: rest => serveWait rest s
  | .reset _ :: rest => .next { s.resetBlock with host := rest }

/-- The write of a command word to CTRL, the access that carries a command (R67, R80). -/
def commandAccess (v : Word) : PortAccess := { idx := 0, we := true, wdata := v }

/-- The host's next access made the write of `v` to CTRL, and the core agent's compressions done, since the write
would hold until then (R245). -/
def State.withCommand (s : State) (v : Word) : State :=
  { s with host := .access (commandAccess v) :: s.host, pend := 0 }

end Sys2Proof.Machine
end

