-- ==== Sys2Proof/Machine/Step.lean ====
section
/-! DEFINITION. The one step of the machine, and the placing of an opcode-table word where the next step takes it. -/

namespace Sys2Proof.Machine

/-- One step of the machine; `hostStep` says what it is. -/
def step : State → Host.Outcome State Fault Refusal := hostStep

/-- `s` with an opcode-table word as the host's next write to CTRL, which the next step performs: the block fetches
nothing and is given each command (R67; notes/assumptions/4.md). -/
def State.withFetchWord (s : State) (nbits w : Nat) : State := s.withCommand (tableWord nbits w)

end Sys2Proof.Machine
end

