-- ==== Sys2Proof/Machine/Assembler.lean ====
section
/-! DEFINITION. The host-side notation (R89) and its pseudo-instructions (R90): each statement as the host events it
stands for. Here statements are trees; AssemblerText.lean reads them from text. -/

namespace Sys2Proof.Machine

/-- The register names, for word indexes 0..15 in order (R89). -/
inductive RegName where
  | ctrl | status | din | rsv3 | lenLo | lenHi | rsv6 | rsv7
  | digest (i : Fin 8)
deriving DecidableEq, Repr

/-- `idx(reg)` (R51, R89). -/
def RegName.index : RegName → RegIndex
  | .ctrl => 0
  | .status => 1
  | .din => 2
  | .rsv3 => 3
  | .lenLo => 4
  | .lenHi => 5
  | .rsv6 => 6
  | .rsv7 => 7
  | .digest i => BitVec.ofNat 4 (8 + i.val)

/-- One statement of the notation: a statement of R89 or a pseudo-instruction of R90. -/
inductive Stmt where
  | nop
  | init
  | write (n : Nat)
  | close
  | cmd (v : Word)
  | wr (reg : RegName) (v : Word)
  | rd (reg : RegName)
  | push (n : Nat) (v : Word)
  | bytes (bs : List Byte)
  | wait
  | digest
  | hash (bs : List Byte)
deriving DecidableEq, Repr

/-- A host write as an event (`BusWrite`). -/
def writeEvent (idx : RegIndex) (v : Word) : HostEvent := .access { idx := idx, we := true, wdata := v }

/-- A host read as an event (`BusRead`). -/
def readEvent (idx : RegIndex) : HostEvent := .access { idx := idx, we := false, wdata := 0 }

/-- A command as an event: a write of its word to CTRL. -/
def commandEvent (i : Instr) : HostEvent := .access (commandAccess (encode i))

/-- PUSH: a write of DIN, then WRITE of the first `n` bytes (R90). -/
def pushEvents (n : Nat) (v : Word) : List HostEvent := [writeEvent 2 v, commandEvent (.write n)]

/-- BYTES: one PUSH for each group of 4 bytes, and one for a final group of 1 to 3 with zeros below (R90). -/
def bytesEvents : List Byte → List HostEvent
  | [] => []
  | [b0] => pushEvents 1 (wordOfBytes b0 0 0 0)
  | [b0, b1] => pushEvents 2 (wordOfBytes b0 b1 0 0)
  | [b0, b1, b2] => pushEvents 3 (wordOfBytes b0 b1 b2 0)
  | b0 :: b1 :: b2 :: b3 :: rest => pushEvents 4 (wordOfBytes b0 b1 b2 b3) ++ bytesEvents rest

/-- DIGEST: reads of DIGEST0 .. DIGEST7 in order (R90). -/
def digestEvents : List HostEvent := (List.range 8).map fun i => readEvent (BitVec.ofNat 4 (8 + i))

/-- A statement assembled; none where it does not assemble, a byte count outside 1..4 (R89, R90). -/
def assemble : Stmt → Option (List HostEvent)
  | .nop => some [commandEvent .nop]
  | .init => some [commandEvent .init]
  | .write n => if 1 ≤ n ∧ n ≤ 4 then some [commandEvent (.write n)] else none
  | .close => some [commandEvent .close]
  | .cmd v => some [.access (commandAccess v)]
  | .wr reg v => some [writeEvent reg.index v]
  | .rd reg => some [readEvent reg.index]
  | .push n v => if 1 ≤ n ∧ n ≤ 4 then some (pushEvents n v) else none
  | .bytes bs => some (bytesEvents bs)
  | .wait => some [.waitIdle]
  | .digest => some digestEvents
  | .hash bs => some (commandEvent .init :: bytesEvents bs ++ commandEvent .close :: digestEvents)

/-- A program assembled, statement by statement; none where one of them does not assemble. -/
def assembleAll : List Stmt → Option (List HostEvent)
  | [] => some []
  | st :: rest =>
    match assemble st, assembleAll rest with
    | some es, some more => some (es ++ more)
    | _, _ => none

/-- The port accesses of a list of events, in order: the accesses themselves. -/
def accessesOf : List HostEvent → List PortAccess
  | [] => []
  | .access a :: rest => a :: accessesOf rest
  | _ :: rest => accessesOf rest

end Sys2Proof.Machine
end

