-- ==== Sys2Proof/Machine/Reference.lean ====
section
/-! DEFINITION. The closed forms of R161, R174 and R175: the digest of a whole message, written without the staging
buffer, its `curlen` or any command. Claims compare the machine with it; the machine never calls it. -/

namespace Sys2Proof.Machine

/-- The first 64 bytes of a byte string as a block. -/
def toBlock (S : List Byte) : Vector Byte 64 := Vector.ofFn fun j : Fin 64 => S.getD j.val 0

/-- Compress*: `q` whole blocks of a byte string compressed in turn, from `H` (R161). -/
def compressBlocks : Nat → Vector Word 8 → List Byte → Vector Word 8
  | 0, H, _ => H
  | q + 1, H, S => compressBlocks q (compress H (toBlock S)) (S.drop 64)

/-- The number of zero bytes of the padding of `n` bytes, `(55 - n) mod 64` (R174). -/
def padZeroCount (n : Nat) : Nat := (119 - n % 64) % 64

/-- `S || 0x80 || 0x00^z || L64(8n)` (R175). -/
def paddedMessage (S : List Byte) : List Byte :=
  S ++ [0x80] ++ List.replicate (padZeroCount S.length) 0x00 ++ lengthBytes (BitVec.ofNat 64 (8 * S.length))

/-- The digest words of a message: its padded form compressed block by block from the IV (R175). -/
def sha256 (S : List Byte) : Vector Word 8 :=
  compressBlocks ((paddedMessage S).length / 64) initialWords (paddedMessage S)

end Sys2Proof.Machine
end

