-- ==== Sys2Proof/Safety.lean ====
section
/-! DEFINITION. The terms claims are stated in: the fault bit, the state invariant, what two states or two reads have
in common apart from timing, and the message a sequence of accesses feeds to the block. -/

namespace Sys2Proof.Machine

/-- No error is recorded: `err` is the fault bit a claim about a digest takes as 0 (R207). -/
abbrev State.ErrorFree (s : State) : Prop := s.err = .none

/-- What every state has that the block can reach between steps: `length` counts whole bytes (R25); `curlen` and
`length` agree with the phase (R26), the first message byte leaves INITIALIZED (R27), `H` is 0 before the first INIT
and the IV before the first message byte (R41, R56); and at most two compressions are outstanding, the most one
command starts, since no command is accepted before they are done (R174, R245). -/
structure State.Inv (s : State) : Prop where
  lengthWholeBytes : s.length.toNat % 8 = 0
  uninitEmpty : s.phase = .uninit → s.curlen = 0 ∧ s.length = 0 ∧ s.H = Vector.replicate 8 0
  initializedEmpty : s.phase = .initialized → s.length = 0 ∧ s.H = initialWords
  accumulatingSome : s.phase = .accumulating → 0 < s.length.toNat
  curlenOpen : s.phase.acceptsData = true → s.curlen.toNat = s.length.toNat / 8 % 64
  curlenClosed : s.phase = .finalized → s.curlen = 0
  pendAtMostTwo : s.pend ≤ 2

/-- The architectural state of R20 on its own, as a host program leaves it at its end: the core agent done, and
nothing of the host side (R247). -/
def State.settled (s : State) : State :=
  { s with pend := 0, host := [], returned := [], waits := 0, draws := 0 }

/-- A read's result apart from timing: bit 0 of STATUS, BUSY, is the only bit of any read that timing can change
(R246, R248). -/
def ReadResult.settled (r : ReadResult) : ReadResult :=
  if r.idx = 1 then { r with data := r.data &&& 0xFFFFFFFE } else r

/-- Two states that differ at most in the stale bytes `buf[curlen..63]` (R23). -/
structure State.SameButStale (s t : State) : Prop where
  valid : ∀ j : Fin 64, j.val < s.curlen.toNat → s.buf[j] = t.buf[j]
  rest : { s with buf := t.buf } = t

/-- The access is a write to CTRL of a word that decodes to the command `i`. -/
def PortAccess.Carries (a : PortAccess) (i : Instr) : Prop := a.we = true ∧ a.idx = 0 ∧ decode a.wdata = .ok i

/-- The access raises no error of its own and is neither INIT nor CLOSE: a read, a write of DIN, NOP or WRITE. -/
def PortAccess.Feeds (a : PortAccess) : Prop :=
  a.we = false ∨ a.idx = 2 ∨ a.Carries .nop ∨ ∃ nb, a.Carries (.write nb)

/-- The message bytes the WRITE commands of a sequence of accesses take from DIN, with `din` its value before them
(R151); DIN keeps its value until the host writes it (R243). -/
def fedBytes : Word → List PortAccess → List Byte
  | _, [] => []
  | din, a :: rest =>
    if a.we = true ∧ a.idx = 2 then fedBytes a.wdata rest
    else if a.we = true ∧ a.idx = 0 then
      match decode a.wdata with
      | .ok (.write nb) => messageBytes din nb ++ fedBytes din rest
      | _ => fedBytes din rest
    else fedBytes din rest

end Sys2Proof.Machine
end

