-- ==== Sys2Proof/Certificates/Slice0/Obligations.lean ====
section
/-! DEFINITION. The statements for the provers, each formalising a rule of the spec. Every statement about commands
or accesses is about `exec`, `perform` or `step` as the model defines them; none is about a fixed program. -/

open Sys2Proof Sys2Proof.Machine

/-! ## Encoding -/

/-- Every 32-bit value that decodes to a command is that command's encoding, and every well-formed command is what
its encoding decodes to (30_encoding.md §3: R84, R86). -/
def Obligations.DecodeIffEncode : Prop :=
  ∀ (v : Word) (i : Instr), decode v = .ok i ↔ i.wellFormed = true ∧ encode i = v

/-- The decoder accepts a value exactly when the formula of R85 holds of it, which is so of seven words only, and it
reads each row of the table of R84 by the row's match and mask. -/
def Obligations.LegalWordsExactlySeven : Prop :=
  ∀ v : Word,
    ((∃ i, decode v = .ok i) ↔
      v.extractLsb' 6 26 = 0 ∧ (v.extractLsb' 0 4).toNat ≤ 3 ∧ (v.extractLsb' 0 4 = 2 ∨ v.extractLsb' 4 2 = 0)) ∧
    ((∃ i, decode v = .ok i) ↔
      v ∈ [0x00000000, 0x00000001, 0x00000002, 0x00000012, 0x00000022, 0x00000032, (0x00000003 : Word)]) ∧
    (decode v = .ok .nop ↔ v &&& 0xFFFFFFFF = 0x00000000) ∧
    (decode v = .ok .init ↔ v &&& 0xFFFFFFFF = 0x00000001) ∧
    (∀ nb, decode v = .ok (.write nb) ↔ v &&& 0xFFFFFFCF = 0x00000002 ∧ nb = (v.extractLsb' 4 2).toNat + 1) ∧
    (decode v = .ok .close ↔ v &&& 0xFFFFFFFF = 0x00000003)

/-- A few words written out from the format of R81, legal and illegal (95_test_vectors.md §6.1). -/
def Obligations.WrittenOutWordsDecode : Prop :=
  decode 0b00000000000000000000000000000000 = .ok .nop ∧
  decode 0b00000000000000000000000000000001 = .ok .init ∧
  decode 0b00000000000000000000000000000010 = .ok (.write 1) ∧
  decode 0b00000000000000000000000000100010 = .ok (.write 3) ∧
  decode 0b00000000000000000000000000000011 = .ok .close ∧
  decode 0b00000000000000000000000000010011 = .error .strayByteCount ∧
  decode 0b00000000000000000000000000000100 = .error .illegalOp ∧
  decode 0b10000000000000000000000000000010 = .error .reservedBitSet

/-! ## Words, rounds, schedule, compression -/

/-- Bit `i` of a rotation is bit `(i + n) mod 32` of the operand (R100), for the amounts the formula is defined for. -/
def Obligations.RotationMovesBits : Prop :=
  ∀ (x : Word) (n i : Nat), 0 < n → n < 32 → i < 32 →
    (rotr x n).getLsbD i = x.getLsbD ((i + n) % 32) ∧
    rotr 0 n = 0 ∧ rotr 0xFFFFFFFF n = 0xFFFFFFFF

/-- CH takes `f`'s bit where `e`'s bit is 1 and `g`'s where it is 0 (R102); MAJ takes the value held by at least two
of its operands, and does not depend on their order (R103). -/
def Obligations.ChooseAndMajorityByBits : Prop :=
  ∀ (x y z : Word),
    (∀ i, i < 32 → (ch x y z).getLsbD i = if x.getLsbD i then y.getLsbD i else z.getLsbD i) ∧
    (∀ i, i < 32 → ((maj x y z).getLsbD i = true ↔
      2 ≤ (x.getLsbD i).toNat + (y.getLsbD i).toNat + (z.getLsbD i).toNat)) ∧
    ch 0 y z = z ∧ ch 0xFFFFFFFF y z = y ∧ ch x y y = y ∧
    maj x x y = x ∧ maj 0 0xFFFFFFFF y = y ∧
    maj x y z = maj y x z ∧ maj x y z = maj x z y

/-- The four mixing functions bit by bit: BSIG0 (R104), BSIG1 (R105), SSIG0 (R121) and SSIG1 (R122), with zeros where
a shifted term has no bit. -/
def Obligations.MixingFunctionsByBits : Prop :=
  ∀ (x : Word) (i : Nat), i < 32 →
    (bsig0 x).getLsbD i =
      ((x.getLsbD ((i + 2) % 32) ^^ x.getLsbD ((i + 13) % 32)) ^^ x.getLsbD ((i + 22) % 32)) ∧
    (bsig1 x).getLsbD i =
      ((x.getLsbD ((i + 6) % 32) ^^ x.getLsbD ((i + 11) % 32)) ^^ x.getLsbD ((i + 25) % 32)) ∧
    (ssig0 x).getLsbD i =
      ((x.getLsbD ((i + 7) % 32) ^^ x.getLsbD ((i + 18) % 32)) ^^ (decide (i + 3 < 32) && x.getLsbD (i + 3))) ∧
    (ssig1 x).getLsbD i =
      ((x.getLsbD ((i + 17) % 32) ^^ x.getLsbD ((i + 19) % 32)) ^^ (decide (i + 10 < 32) && x.getLsbD (i + 10)))

/-- One round as arithmetic on numbers, reduced modulo 2^32 once at the end (R106): the new `a` and `e`, and the six
variables that are copies. -/
def Obligations.RoundInModularArithmetic : Prop :=
  ∀ (v : Working) (k w : Word), ∃ T1 T2 : Nat,
    T1 = v.h.toNat + (bsig1 v.e).toNat + (ch v.e v.f v.g).toNat + k.toNat + w.toNat ∧
    T2 = (bsig0 v.a).toNat + (maj v.a v.b v.c).toNat ∧
    (shaRound v k w).a.toNat = (T1 + T2) % 2 ^ 32 ∧
    (shaRound v k w).e.toNat = (v.d.toNat + T1) % 2 ^ 32 ∧
    (shaRound v k w).b = v.a ∧ (shaRound v k w).c = v.b ∧ (shaRound v k w).d = v.c ∧
    (shaRound v k w).f = v.e ∧ (shaRound v k w).g = v.f ∧ (shaRound v k w).h = v.g

/-- For a fixed round constant and schedule word a round is a bijection on the working variables, and R107's
formulas give its inverse on both sides. -/
def Obligations.RoundIsBijective : Prop :=
  ∀ k w : Word,
    Function.Bijective (fun v => shaRound v k w) ∧
    (∀ v, shaRoundInverse (shaRound v k w) k w = v) ∧
    (∀ v a b c d e f g h, shaRound v k w = { a := a, b := b, c := c, d := d, e := e, f := f, g := g, h := h } →
      v.a = b ∧ v.b = c ∧ v.c = d ∧ v.e = f ∧ v.f = g ∧ v.g = h ∧
      v.d = e - (a - (bsig0 b + maj b c d)) ∧
      v.h = (a - (bsig0 b + maj b c d)) - bsig1 f - ch f g h - k - w)

/-- The schedule: 64 words, the first 16 the big-endian words of the block (R120), every later one by the recurrence
of R123. -/
def Obligations.ScheduleRecurrence : Prop :=
  ∀ B : Vector Byte 64,
    (schedule B).length = 64 ∧
    (∀ j : Fin 16, (schedule B).getD j.val 0 =
      (B[4 * j.val].setWidth 32 <<< 24) ||| (B[4 * j.val + 1].setWidth 32 <<< 16) |||
      (B[4 * j.val + 2].setWidth 32 <<< 8) ||| B[4 * j.val + 3].setWidth 32) ∧
    (∀ i, 16 ≤ i → i < 64 → (schedule B).getD i 0 =
      ssig1 ((schedule B).getD (i - 2) 0) + (schedule B).getD (i - 7) 0 +
      ssig0 ((schedule B).getD (i - 15) 0) + (schedule B).getD (i - 16) 0)

/-- A datapath that keeps a 16-word window computes the same schedule, and so the same compression (R124). -/
def Obligations.WindowedScheduleRefines : Prop :=
  ∀ (H : Vector Word 8) (B : Vector Byte 64),
    windowedSchedule 64 (blockWords B) = schedule B ∧ compressWindowed H B = compress H B

/-- Compress: the working variables start as the state words, round `t` uses `K[t]` and `W[t]` for t = 0..63 in
order, and the state words are incremented by the variables after round 63 (R135); on the state, only `H` and `pend`
change. -/
def Obligations.CompressRunsTheRounds : Prop :=
  ∀ s : State, ∃ v : Nat → Working,
    v 0 = { a := s.H[0], b := s.H[1], c := s.H[2], d := s.H[3], e := s.H[4], f := s.H[5], g := s.H[6], h := s.H[7] } ∧
    (∀ t, t < 64 → v (t + 1) = shaRound (v t) (roundConstants.getD t 0) ((schedule s.buf).getD t 0)) ∧
    s.compressBuffer = { s with
      H := #v[s.H[0] + (v 64).a, s.H[1] + (v 64).b, s.H[2] + (v 64).c, s.H[3] + (v 64).d,
              s.H[4] + (v 64).e, s.H[5] + (v 64).f, s.H[6] + (v 64).g, s.H[7] + (v 64).h]
      pend := s.pend + 1 }

/-- Every initial state word is the integer square root of `p * 2^64` modulo 2^32, with `p` the prime of its index
(R134). -/
def Obligations.InitialWordsFromSquareRoots : Prop :=
  ∀ i : Fin 8, ∃ r : Nat,
    r ^ 2 ≤ Nat.nth Nat.Prime i.val * 2 ^ 64 ∧ Nat.nth Nat.Prime i.val * 2 ^ 64 < (r + 1) ^ 2 ∧
    initialWords[i].toNat = r % 2 ^ 32

/-- Every round constant is the integer cube root of `p * 2^96` modulo 2^32, with `p` the prime of its index, the
last being 311 (R133). -/
def Obligations.RoundConstantsFromCubeRoots : Prop :=
  roundConstants.length = 64 ∧ Nat.nth Nat.Prime 63 = 311 ∧
  ∀ t : Fin 64, ∃ r : Nat,
    r ^ 3 ≤ Nat.nth Nat.Prime t.val * 2 ^ 96 ∧ Nat.nth Nat.Prime t.val * 2 ^ 96 < (r + 1) ^ 3 ∧
    (roundConstants.getD t.val 0).toNat = r % 2 ^ 32

/-! ## The commands -/

/-- NOP changes nothing, in any phase and with any `err` (R190); as the host's next access it is performed when `busy`
is 0, and like every write it holds while `busy` is 1, when the core agent's step is taken instead (R39, R245). That
the host's accesses stand in the state, and that a step in which one is held is the core agent's, are the model's
choice (log entries 1 and 2). -/
def Obligations.NopChangesNothing : Prop :=
  ∀ s : State,
    exec .nop s = .next s ∧
    (∀ rest, s.host = .access { idx := 0, we := true, wdata := 0x00000000 } :: rest →
      (s.pend = 0 → step s = .next { s with host := rest }) ∧
      (s.pend ≠ 0 → ∃ t, step s = .next t ∧ t = { s with pend := s.pend - 1, waits := t.waits, draws := t.draws }))

/-- INIT, from every phase and with every `err`: the IV, an empty buffer, zero lengths, no error; `din`, `pend` and
the host side are not changed; and no other command clears an error (R191). -/
def Obligations.InitStartsANewDigest : Prop :=
  ∀ s : State,
    exec .init s = .next { s with
      H := #v[0x6A09E667, 0xBB67AE85, 0x3C6EF372, 0xA54FF53A, 0x510E527F, 0x9B05688C, 0x1F83D9AB, 0x5BE0CD19]
      buf := Vector.replicate 64 0x00
      curlen := 0
      length := 0
      err := .none
      phase := .initialized } ∧
    ∀ (i : Instr) (t : State), exec i s = .next t → s.err ≠ .none → t.err = .none → i = .init

/-- A WRITE that passes its checks completes: byte `k` of it is `din[31-8k:24-8k]`, stored from `buf[curlen]` on; a
buffer that fills is compressed once and the remaining bytes start the next block; `curlen`, `length`, `phase` and
`pend` follow, and nothing else changes (R151, R156, R160). -/
def Obligations.WriteAbsorbsItsBytes : Prop :=
  ∀ (s : State) (nb : Nat), 1 ≤ nb → nb ≤ 4 → s.err = .none → s.phase = .initialized ∨ s.phase = .accumulating →
    s.length.toNat + 8 * nb ≤ 2 ^ 64 - 1 →
    ∃ (block after : Vector Byte 64),
      (∀ j : Fin 64, block[j] =
        if j.val < s.curlen.toNat then s.buf[j]
        else if j.val < s.curlen.toNat + nb then s.din.extractLsb' (24 - 8 * (j.val - s.curlen.toNat)) 8
        else s.buf[j]) ∧
      (∀ j : Fin 64, after[j] =
        if j.val + 64 < s.curlen.toNat + nb then s.din.extractLsb' (24 - 8 * (j.val + 64 - s.curlen.toNat)) 8
        else block[j]) ∧
      (s.curlen.toNat + nb) / 64 ≤ 1 ∧
      exec (.write nb) s = .next { s with
        H := if s.curlen.toNat + nb < 64 then s.H else compress s.H block
        buf := after
        curlen := BitVec.ofNat 6 ((s.curlen.toNat + nb) % 64)
        length := s.length + BitVec.ofNat 64 (8 * nb)
        phase := .accumulating
        pend := s.pend + (s.curlen.toNat + nb) / 64 }

/-- A CLOSE that passes its checks completes: the buffer from `curlen` on takes 0x80, zeros and, in the block that
has room for it, the 8 bytes of `length`; one compression when `curlen` is at most 55 and two when it is at least 56
(R174); `H` is the result, `buf` the last block, `curlen` 0, `phase` FINALIZED, `length` as before, and nothing else
changes. -/
def Obligations.ClosePadsAndCompresses : Prop :=
  ∀ s : State, s.err = .none → s.phase = .initialized ∨ s.phase = .accumulating →
    ∃ (first last : Vector Byte 64),
      (∀ j : Fin 64, first[j] =
        if j.val < s.curlen.toNat then s.buf[j] else if j.val = s.curlen.toNat then 0x80 else 0x00) ∧
      (∀ j : Fin 64, last[j] =
        if 56 ≤ j.val then s.length.extractLsb' (56 - 8 * (j.val - 56)) 8
        else if s.curlen.toNat ≤ 55 then first[j] else 0x00) ∧
      exec .close s = .next { s with
        H := if s.curlen.toNat ≤ 55 then compress s.H last else compress (compress s.H first) last
        buf := last
        curlen := 0
        phase := .finalized
        pend := s.pend + (if s.curlen.toNat ≤ 55 then 1 else 2) }

/-- The padding by itself: 0x80, then `z = (55 - c) mod 64` zero bytes, then the 8 length bytes, most significant
first, `z + 9` bytes in all, ending on a block boundary after one or two compressions (R174). -/
def Obligations.PaddingClosedForm : Prop :=
  ∀ (s : State) (L : Length), ∃ z : Nat,
    z < 64 ∧ (z + s.curlen.toNat) % 64 = 55 ∧
    s.pad L = s.absorbAll (0x80 :: (List.replicate z 0x00 ++
      [L.extractLsb' 56 8, L.extractLsb' 48 8, L.extractLsb' 40 8, L.extractLsb' 32 8,
       L.extractLsb' 24 8, L.extractLsb' 16 8, L.extractLsb' 8 8, L.extractLsb' 0 8])) ∧
    (s.curlen.toNat + (z + 9)) % 64 = 0 ∧ (s.pad L).curlen = 0 ∧
    (s.pad L).pend = s.pend + (if s.curlen.toNat ≤ 55 then 1 else 2)

/-- The phase after each command that raises no error, and INVALID_STATE with the phase unchanged for WRITE and
CLOSE in UNINIT and FINALIZED: the table of R28. -/
def Obligations.PhaseTransitions : Prop :=
  ∀ (s : State) (nb : Nat), 1 ≤ nb → nb ≤ 4 →
    (∃ t, exec .init s = .next t ∧ t.phase = .initialized) ∧
    (∃ t, exec .nop s = .next t ∧ t.phase = s.phase) ∧
    (s.err = .none → s.phase = .initialized ∨ s.phase = .accumulating →
      (∃ t, exec (.write nb) s = .next t ∧ (t.err = .none → t.phase = .accumulating) ∧
        (t.err ≠ .none → t.phase = s.phase)) ∧
      (∃ t, exec .close s = .next t ∧ t.err = .none ∧ t.phase = .finalized)) ∧
    (s.err = .none → s.phase = .uninit ∨ s.phase = .finalized →
      exec (.write nb) s = .next { s with err := .invalidState } ∧
      exec .close s = .next { s with err := .invalidState })

/-- A WRITE whose bytes would take `length` past 2^64 - 1 raises LENGTH_OVERFLOW and absorbs none of them (R157); any
other is accepted, `length` does not wrap, and a length of whole bytes stays at most 2^64 - 8. -/
def Obligations.LengthNeverWraps : Prop :=
  ∀ (s : State) (nb : Nat), 1 ≤ nb → nb ≤ 4 → s.err = .none → s.phase = .initialized ∨ s.phase = .accumulating →
    (2 ^ 64 - 1 < s.length.toNat + 8 * nb → exec (.write nb) s = .next { s with err := .lengthOverflow }) ∧
    (s.length.toNat + 8 * nb ≤ 2 ^ 64 - 1 →
      ∃ t, exec (.write nb) s = .next t ∧ t.err = .none ∧ t.length.toNat = s.length.toNat + 8 * nb ∧
        (s.length.toNat % 8 = 0 → t.length.toNat ≤ 2 ^ 64 - 8))

/-- What no command changes: `din` (R30), the host's accesses, the values read and the timing drawn; and NOP changes
nothing, while `length` is written by INIT and WRITE only (R20, R40). -/
def Obligations.CommandFrame : Prop :=
  ∀ (i : Instr) (s t : State), exec i s = .next t →
    t.din = s.din ∧ t.host = s.host ∧ t.returned = s.returned ∧ t.waits = s.waits ∧ t.draws = s.draws ∧
    s.pend ≤ t.pend ∧
    (i = .nop → t = s) ∧ (i = .init → t.pend = s.pend) ∧ (i = .close → t.length = s.length)

/-! ## Errors -/

/-- The checks of a CTRL write in the order of R202, the first that fails deciding, and the one error of a write to
any other index. -/
def Obligations.ChecksInOrder : Prop :=
  ∀ (v : Word) (s : State),
    ((∀ i, decode v ≠ .ok i) →
      perform { idx := 0, we := true, wdata := v } s =
        .next { s with err := if s.err = .none then .illegalCmd else s.err }) ∧
    (∀ i, decode v = .ok i →
      (i = .nop ∨ i = .init → ∃ t, perform { idx := 0, we := true, wdata := v } s = .next t ∧
        t.err = if i = .nop then s.err else .none) ∧
      (i ≠ .nop → i ≠ .init →
        (s.err ≠ .none → perform { idx := 0, we := true, wdata := v } s = .next s) ∧
        (s.err = .none → s.phase = .uninit ∨ s.phase = .finalized →
          perform { idx := 0, we := true, wdata := v } s = .next { s with err := .invalidState }) ∧
        (s.err = .none → s.phase = .initialized ∨ s.phase = .accumulating →
          (∀ nb, i = .write nb → 2 ^ 64 - 1 < s.length.toNat + 8 * nb →
            perform { idx := 0, we := true, wdata := v } s = .next { s with err := .lengthOverflow }) ∧
          ((∀ nb, i = .write nb → s.length.toNat + 8 * nb ≤ 2 ^ 64 - 1) →
            ∃ t, perform { idx := 0, we := true, wdata := v } s = .next t ∧ t.err = .none)))) ∧
    (∀ idx : RegIndex, idx ≠ 0 → ∃ t, perform { idx := idx, we := true, wdata := v } s = .next t ∧
      (t.err = s.err ∨ t.err = .accessError))

/-- The causes of each error code, exactly, for an access to a block with no error recorded (R203). -/
def Obligations.ErrorCausesExact : Prop :=
  ∀ (a : PortAccess) (s t : State), s.err = .none → perform a s = .next t →
    (t.err = .invalidState ↔
      (a.Carries .close ∨ ∃ nb, a.Carries (.write nb)) ∧ (s.phase = .uninit ∨ s.phase = .finalized)) ∧
    (t.err = .illegalCmd ↔
      a.we = true ∧ a.idx = 0 ∧
        (4 ≤ (a.wdata.extractLsb' 0 4).toNat ∨ a.wdata.extractLsb' 6 26 ≠ 0 ∨
          (a.wdata.extractLsb' 0 4 ≠ 2 ∧ a.wdata.extractLsb' 4 2 ≠ 0))) ∧
    (t.err = .lengthOverflow ↔
      ∃ nb, a.Carries (.write nb) ∧ (s.phase = .initialized ∨ s.phase = .accumulating) ∧
        2 ^ 64 - 1 < s.length.toNat + 8 * nb) ∧
    (t.err = .accessError ↔ a.we = true ∧ a.idx ∉ [0, (2 : RegIndex)])

/-- Errors are precise and the first is kept: an access that records an error changes only `err`; while one is
recorded no access but INIT changes it, and an access that would raise a second one changes nothing (R201, R205). -/
def Obligations.ErrorsArePreciseAndFirstIsKept : Prop :=
  ∀ (a : PortAccess) (s t : State), perform a s = .next t →
    (s.err = .none → t.err ≠ .none → t = { s with err := t.err }) ∧
    (s.err ≠ .none → t.err = s.err ∨ (a.Carries .init ∧ t.err = .none)) ∧
    (s.err ≠ .none → a.we = true → a.idx ≠ 2 → (a.idx = 0 → ∀ i, decode a.wdata ≠ .ok i) → t = s)

/-- Over the whole machine: a step that changes a recorded error performs an INIT or is a reset (R206). -/
def Obligations.OnlyInitAndResetClearErr : Prop :=
  ∀ s t : State, step s = .next t → s.err ≠ .none → t.err ≠ s.err →
    t.err = .none ∧
    ((∃ p rest, s.host = .reset p :: rest) ∨
     (s.pend = 0 ∧ ∃ rest, (∃ a, s.host = .access a :: rest ∧ a.Carries .init) ∨
       (∃ A bits we v a, s.host = .bridged A bits we v :: rest ∧ bridgeAccess A bits we v = some a ∧ a.Carries .init)))

/-- While an error is pending WRITE and CLOSE change nothing; writes of DIN, reads, NOP and INIT do what they do
without one; and however the host goes on without INIT, the message is never closed (R204). -/
def Obligations.PendingErrorBlocksTheMessage : Prop :=
  ∀ s : State, s.err ≠ .none →
    (∀ nb, 1 ≤ nb → nb ≤ 4 → exec (.write nb) s = .next s) ∧ exec .close s = .next s ∧
    (∀ v, perform { idx := 2, we := true, wdata := v } s = .next { s with din := v }) ∧
    (∀ idx v, perform { idx := idx, we := false, wdata := v } s =
      .next { s with returned := { idx := idx, data := busRead idx s } :: s.returned }) ∧
    exec .nop s = .next s ∧ (∃ t, exec .init s = .next t ∧ t.err = .none ∧ t.phase = .initialized) ∧
    (∀ accesses : List PortAccess, (∀ a ∈ accesses, ¬ a.Carries .init) →
      ∃ t, performAll accesses s = .next t ∧ t = { s with din := t.din, returned := t.returned })

/-- A digest stays in `H` until INIT or reset: no sequence of accesses without INIT changes `H`, `buf`, `curlen`,
`length` or `phase` of a FINALIZED block (R177). -/
def Obligations.DigestStaysUntilInit : Prop :=
  ∀ (s : State) (accesses : List PortAccess), s.phase = .finalized → (∀ a ∈ accesses, ¬ a.Carries .init) →
    ∃ t, performAll accesses s = .next t ∧
      t = { s with err := t.err, din := t.din, returned := t.returned }

/-! ## The port -/

/-- A write of DIN sets all 32 bits in every phase and with any `err`, raises no error and changes nothing else
(R58). -/
def Obligations.DinWriteSetsDin : Prop :=
  ∀ (s : State) (v : Word), perform { idx := 2, we := true, wdata := v } s = .next { s with din := v }

/-- A write to a read-only or reserved index sets `err` to ACCESS_ERROR if it was 0, and nothing else (R59). -/
def Obligations.ReadOnlyWriteIsAccessError : Prop :=
  ∀ (s : State) (idx : RegIndex) (v : Word), idx ∈ [1, 3, 4, 5, 6, 7, 8, 9, 10, 11, 12, 13, 14, (15 : RegIndex)] →
    perform { idx := idx, we := true, wdata := v } s =
      .next { s with err := if s.err = .none then .accessError else s.err }

/-- A read returns the register's value and has no other effect (20_memory.md §3: R54, R55): CTRL and the reserved indexes
0, DIN `din`, LEN_LO and LEN_HI the halves of `length` (R35), DIGESTi `H[i]` in every phase (R56). -/
def Obligations.ReadReturnsTheRegister : Prop :=
  ∀ (s : State) (idx : RegIndex) (w : Word), ∃ v : Word,
    perform { idx := idx, we := false, wdata := w } s =
      .next { s with returned := { idx := idx, data := v } :: s.returned } ∧
    (idx ∈ [0, 3, 6, (7 : RegIndex)] → v = 0) ∧
    (idx = 1 → v = s.status) ∧
    (idx = 2 → v = s.din) ∧
    (idx = 4 → v.toNat = s.length.toNat % 2 ^ 32) ∧
    (idx = 5 → v.toNat = s.length.toNat / 2 ^ 32) ∧
    (∀ i : Fin 8, idx = BitVec.ofNat 4 (8 + i.val) → v = s.H[i])

/-- The fields of the STATUS word, bit by bit, the reserved bits reading 0 (10_state.md §6: R33, R200). -/
def Obligations.StatusFields : Prop :=
  ∀ s : State,
    s.status.getLsbD 0 = decide (s.pend ≠ 0) ∧
    (s.status.extractLsb' 1 2).toNat =
      (match s.phase with | .uninit => 0 | .initialized => 1 | .accumulating => 2 | .finalized => 3) ∧
    s.status.getLsbD 3 = false ∧
    (s.status.extractLsb' 4 3).toNat =
      (match s.err with
        | .none => 0 | .invalidState => 1 | .illegalCmd => 2 | .lengthOverflow => 3 | .accessError => 4) ∧
    s.status.getLsbD 7 = false ∧
    s.status.extractLsb' 8 6 = s.curlen ∧
    s.status.extractLsb' 14 18 = 0

/-- What each access can change: a write to CTRL performs its command, a write of DIN changes `din`, a write to any
other index at most `err`, and a read nothing (R60); the value a read returned is the host's. -/
def Obligations.SideEffectsByAccess : Prop :=
  ∀ (a : PortAccess) (s t : State), perform a s = .next t →
    (a.we = false → t = { s with returned := t.returned }) ∧
    (∀ i, a.Carries i → exec i s = .next t) ∧
    (a.we = true → a.idx = 2 → t = { s with din := t.din }) ∧
    (a.we = true → a.idx ≠ 0 → a.idx ≠ 2 → t = { s with err := t.err })

/-- After a CLOSE the 32 digest bytes are the state words as 4 big-endian bytes each, in order (R178). -/
def Obligations.DigestBytesAreBigEndian : Prop :=
  ∀ H : Vector Word 8,
    (digestBytes H).length = 32 ∧
    (∀ (i : Fin 8) (j : Fin 4), (digestBytes H).getD (4 * i.val + j.val) 0 = H[i].extractLsb' (24 - 8 * j.val) 8) ∧
    (∀ (s : State) (i : Fin 8), busRead (BitVec.ofNat 4 (8 + i.val)) s = s.H[i])

/-- The bridge presents word index `A[5:2]` for an aligned 32-bit access and refuses any other (20_memory.md §2: R52);
what becomes of a refused one is BRIDGE_MISALIGNED, open, and the model refuses it by name. In a map whose
base is a multiple of 64, the host address of an index reaches that index (R51). A step with a presented access at the
head serves that port access: it is performed when `busy` is 0 and held like any other while `busy` is 1. That the
bridged access stands in the state, and the refusal, are the model's choice (log entries 1 and 6). -/
def Obligations.BridgePresentsTheWordIndex : Prop :=
  (∀ (A : Nat) (we : Bool) (v : Word), A % 4 = 0 →
    ∃ a, bridgeAccess A 32 we v = some a ∧ a.idx.toNat = A / 4 % 16 ∧ a.we = we ∧ a.wdata = v) ∧
  (∀ (A bits : Nat) (we : Bool) (v : Word) (s : State) (rest : List HostEvent), A % 4 ≠ 0 ∨ bits ≠ 32 →
    s.host = .bridged A bits we v :: rest → step s = .refused .bridgeAccessUnspecified) ∧
  (∀ (base : Nat) (idx : RegIndex) (we : Bool) (v : Word), base % 64 = 0 →
    bridgeAccess (addressAt base idx) 32 we v = some { idx := idx, we := we, wdata := v }) ∧
  (∀ (A bits : Nat) (we : Bool) (v : Word) (a : PortAccess) (s : State) (rest : List HostEvent),
    bridgeAccess A bits we v = some a → s.host = .bridged A bits we v :: rest →
    step s = serveAccess a rest s ∧
    (s.pend = 0 → step s = perform a { s with host := rest }) ∧
    (s.pend ≠ 0 → ¬ (a.we = false ∧ a.idx = 1) →
      ∃ t, step s = .next t ∧ t = { s with pend := s.pend - 1, waits := t.waits, draws := t.draws }))

/-! ## Steps, holds and timing -/

/-- A step runs the decoded command: with a write of `v` to CTRL at the head, `busy` 0 and `v` decoding to `i`, the
step is `exec i` on the state with that access taken off; so too for an opcode-table word placed by
`withFetchWord` (R64, R67, R86). -/
def Obligations.StepRunsTheDecodedCommand : Prop :=
  (∀ (s : State) (v : Word) (rest : List HostEvent) (i : Instr),
    s.host = .access { idx := 0, we := true, wdata := v } :: rest → s.pend = 0 → decode v = .ok i →
    step s = exec i { s with host := rest }) ∧
  (∀ (s : State) (nbits w : Nat) (i : Instr), decodeTableWord nbits w = some i →
    step (s.withFetchWord nbits w) = exec i { s with pend := 0 })

/-- Every step completes, in every state, but for a bridged access that the bridge must refuse: no error, no command
and no value stops the block (60_exceptions.md §2: R205). -/
def Obligations.EveryStepCompletes : Prop :=
  ∀ s : State, (∃ t, step s = .next t) ∨
    (step s = .refused .bridgeAccessUnspecified ∧
      ∃ A bits we v rest, s.host = .bridged A bits we v :: rest ∧ (A % 4 ≠ 0 ∨ bits ≠ 32))

/-- A held access (70_reset_and_hazards.md §3: R245): while `busy` is 1 every access but a STATUS read waits, one step of the core
agent after another, not dropped, not reordered and nothing but the timing changed; after `pend` steps it is performed. -/
def Obligations.HeldAccessIsPerformedAfterItsHold : Prop :=
  ∀ (s : State) (a : PortAccess) (rest : List HostEvent), s.host = .access a :: rest →
    ¬ (a.we = false ∧ a.idx = 1) →
    (∀ k, k ≤ s.pend → ∃ u, Host.Core.run Sys2Proof.core k s = .next u ∧
      u = { s with pend := s.pend - k, waits := u.waits, draws := s.draws + k }) ∧
    (∃ u, Host.Core.run Sys2Proof.core s.pend s = .next u ∧ u.pend = 0 ∧
      Host.Core.run Sys2Proof.core (s.pend + 1) s = perform a { u with host := rest })

/-- A STATUS read is never held (70_reset_and_hazards.md §3: R245, R246): when `busy` is 0, and when the free timing of
log entry 2 lets it go before the core agent's next step, the step performs it, and its BUSY is 1 exactly while `pend`
is not 0; otherwise that one step is the core agent's, and after at most `pend` of those it is performed. In every case
it returns STATUS as it then is and nothing but the timing has changed. -/
def Obligations.StatusReadIsNeverHeld : Prop :=
  ∀ (s : State) (w : Word) (rest : List HostEvent),
    s.host = .access { idx := 1, we := false, wdata := w } :: rest →
    (∃ t, step s = .next t ∧ t.settled = s.settled ∧
      (if s.pend = 0 ∨ s.statusReadFirst = true then
        t.host = rest ∧ t.pend = s.pend ∧
        ∃ v : Word, t.returned = { idx := 1, data := v } :: s.returned ∧ v = s.status ∧
          v.getLsbD 0 = decide (s.pend ≠ 0)
      else t = { s with pend := s.pend - 1, waits := t.waits, draws := t.draws })) ∧
    ∃ (k : Nat) (u t : State), k ≤ s.pend ∧ Host.Core.run Sys2Proof.core k s = .next u ∧
      u = { s with pend := s.pend - k, waits := u.waits, draws := u.draws } ∧
      (u.pend = 0 ∨ u.statusReadFirst = true) ∧ step u = .next t ∧
      t.settled = s.settled ∧ t.host = rest ∧ t.pend = u.pend ∧
      t.returned = { idx := 1, data := u.status } :: s.returned

/-- The WAIT loop ends, whatever the free timing of the core agent (70_reset_and_hazards.md §3: the weak fairness of R245): after
some number of steps the block is not busy, the last value read has BUSY 0, and nothing else has changed. -/
def Obligations.WaitLoopEnds : Prop :=
  ∀ (s : State) (rest : List HostEvent), s.host = .waitIdle :: rest →
    ∃ (n : Nat) (t : State) (reads : List ReadResult), Host.Core.run Sys2Proof.core n s = .next t ∧
      t.host = rest ∧ t.pend = 0 ∧ t.settled = s.settled ∧
      t.returned = { idx := 1, data := t.status } :: (reads ++ s.returned) ∧ t.status.getLsbD 0 = false ∧
      ∀ r ∈ reads, r.idx = 1 ∧ r.data.getLsbD 0 = true

/-- BUSY, once 0, is 0 until a command compresses (70_reset_and_hazards.md §3: R246). An access to a block with `pend`
0 adds nothing to `pend`, and leaves BUSY reading 0, unless it is an accepted WRITE that fills a block or an accepted
CLOSE; and however long the machine runs on accesses that together add nothing to `pend`, `pend` stays 0 and every
STATUS read returns BUSY 0. -/
def Obligations.BusyStaysZero : Prop :=
  (∀ (a : PortAccess) (s t : State), s.pend = 0 → perform a s = .next t →
    ((t.pend ≠ 0 ↔ s.err = .none ∧ (s.phase = .initialized ∨ s.phase = .accumulating) ∧
      (a.Carries .close ∨ ∃ nb, a.Carries (.write nb) ∧ s.length.toNat + 8 * nb ≤ 2 ^ 64 - 1 ∧
        64 ≤ s.curlen.toNat + nb)) ∧
    t.status.getLsbD 0 = decide (t.pend ≠ 0))) ∧
  (∀ (n : Nat) (s t u : State) (accesses : List PortAccess), s.pend = 0 → s.host = accesses.map .access →
    performAll accesses s = .next u → u.pend = 0 → Host.Core.run Sys2Proof.core n s = .next t →
    t.pend = 0 ∧ ∃ reads, t.returned = reads ++ s.returned ∧ ∀ r ∈ reads, r.idx = 1 → r.data.getLsbD 0 = false)

/-- Timing affects only BUSY (70_reset_and_hazards.md §4: R247, R248): whatever the free timing of the core agent, the machine
performs a host's accesses to their end, and leaves the architectural state and the values read that performing them
one after another without any timing gives, but for bit 0 of STATUS reads. -/
def Obligations.TimingAffectsOnlyBusy : Prop :=
  ∀ (s : State) (accesses : List PortAccess), s.host = accesses.map .access →
    ∃ (u t : State) (n : Nat), performAll accesses s = .next u ∧ Host.Core.run Sys2Proof.core n s = .next t ∧
      t.host = [] ∧ t.pend = 0 ∧ t.settled = u.settled ∧
      t.returned.map ReadResult.settled = u.returned.map ReadResult.settled

/-! ## Reset and invariants -/

/-- Every element of R20 after reset (R41): all zero, UNINIT, no error, and every register reads 0. -/
def Obligations.ResetValues : Prop :=
  (∀ i : Fin 8, State.reset.H[i] = 0x00000000) ∧ (∀ j : Fin 64, State.reset.buf[j] = 0x00) ∧
  State.reset.curlen = 0 ∧ State.reset.length = 0 ∧ State.reset.phase = .uninit ∧ State.reset.err = .none ∧
  State.reset.pend = 0 ∧ State.reset.busy = false ∧ State.reset.din = 0x00000000 ∧
  ∀ idx : RegIndex, busRead idx State.reset = 0x00000000

/-- Reset from any state, `busy` or not and with any access in progress: every element of R20 at its reset value,
that access without effect, so that it returned no value (R240). That the values already read stay is the model's
choice (log entry 5). -/
def Obligations.ResetInputResetsEverything : Prop :=
  ∀ (s : State) (inProgress : Option PortAccess) (rest : List HostEvent), s.host = .reset inProgress :: rest →
    ∃ t, step s = .next t ∧ t.settled = State.reset ∧ t.pend = 0 ∧ t.returned = s.returned

/-- The reset state meets the invariant. -/
def Obligations.ResetMeetsTheInvariant : Prop := State.reset.Inv

/-- Every step keeps the invariant: `length` counts whole bytes (R25), `curlen` follows it (R26), `H` is what the
phase says it is (R56), at most two compressions are outstanding. -/
def Obligations.StepKeepsTheInvariant : Prop :=
  ∀ s t : State, s.Inv → step s = .next t → t.Inv

/-- The stale bytes `buf[curlen..63]` are never read before they are overwritten (R23): two states that differ in
nothing else take steps to states that differ in nothing else. -/
def Obligations.StaleBytesNeverMatter : Prop :=
  ∀ s t s' : State, s.SameButStale t → step s = .next s' → ∃ t', step t = .next t' ∧ s'.SameButStale t'

/-! ## Whole messages -/

/-- Chunking does not matter (R159): from one state, two sequences of accesses whose accepted WRITE commands take the
same bytes leave the same `H`, `curlen`, `length` and valid bytes of `buf`. -/
def Obligations.ChunkingInvariance : Prop :=
  ∀ (s t u : State) (as bs : List PortAccess), (∀ a ∈ as, a.Feeds) → (∀ a ∈ bs, a.Feeds) →
    performAll as s = .next t → performAll bs s = .next u → t.err = .none → u.err = .none →
    fedBytes s.din as = fedBytes s.din bs →
    t.H = u.H ∧ t.curlen = u.curlen ∧ t.length = u.length ∧ ∀ j : Fin 64, j.val < t.curlen.toNat → t.buf[j] = u.buf[j]

/-- The closed form of streaming (R161): after INIT and WRITE commands that take the bytes S, `H` is the IV
compressed with each whole block of S in turn, `buf` holds the rest, and `curlen`, `length` and `phase` count S. -/
def Obligations.StreamingClosedForm : Prop :=
  ∀ (s₀ s : State) (as : List PortAccess) (S : List Byte), exec .init s₀ = .next s → (∀ a ∈ as, a.Feeds) →
    S = fedBytes s.din as → 8 * S.length < 2 ^ 64 →
    ∃ t, performAll as s = .next t ∧ t.err = .none ∧
      t.H = compressBlocks (S.length / 64) initialWords S ∧
      t.curlen.toNat = S.length % 64 ∧
      (∀ j : Fin 64, j.val < S.length % 64 → t.buf[j] = S.getD (64 * (S.length / 64) + j.val) 0) ∧
      t.length.toNat = 8 * S.length ∧
      t.phase = if S = [] then .initialized else .accumulating

/-- End to end (R175): INIT, WRITE commands that take the bytes S in any chunks with any reads, NOPs and DIN writes
among them, and CLOSE leave `H` equal to the compression from the IV of each block of the padded S in turn. -/
def Obligations.HashOfAWholeMessage : Prop :=
  ∀ (s : State) (as : List PortAccess) (S : List Byte), (∀ a ∈ as, a.Feeds) → S = fedBytes s.din as →
    S.length ≤ 2 ^ 61 - 1 →
    ∃ t, performAll (commandAccess (encode .init) :: as ++ [commandAccess (encode .close)]) s = .next t ∧
      t.H = sha256 S ∧ t.phase = .finalized ∧ t.err = .none ∧ t.curlen = 0 ∧ t.length.toNat = 8 * S.length

/-- FINALIZED is to be trusted (70_reset_and_hazards.md §2: R242, item 6): whatever accesses other than INIT and
CLOSE stand between INIT and CLOSE, the block ends FINALIZED exactly when no error was recorded, and then `H` is the digest of
exactly the bytes written. -/
def Obligations.FinalizedMeansTheDigest : Prop :=
  ∀ (s : State) (as : List PortAccess), (∀ a ∈ as, ¬ a.Carries .init ∧ ¬ a.Carries .close) →
    ∃ t, performAll (commandAccess (encode .init) :: as ++ [commandAccess (encode .close)]) s = .next t ∧
      (t.phase = .finalized ↔ t.err = .none) ∧
      (t.phase = .finalized → t.H = sha256 (fedBytes s.din as) ∧ t.length.toNat = 8 * (fedBytes s.din as).length)

/-! ## The host notation -/

/-- The pseudo-instruction BYTES feeds exactly its bytes, in order, and only with accesses that feed; WRITE and PUSH
with a count outside 1..4 do not assemble, and every other statement does (30_encoding.md §5: R89, R90). -/
def Obligations.AssembledBytesFeedTheMessage : Prop :=
  (∀ (bs : List Byte) (es : List HostEvent), assemble (.bytes bs) = some es →
    es = (accessesOf es).map .access ∧ (∀ a ∈ accessesOf es, a.Feeds) ∧
    ∀ din : Word, fedBytes din (accessesOf es) = bs) ∧
  (∀ st : Stmt, assemble st = none ↔
    ∃ n, (n < 1 ∨ 4 < n) ∧ (st = .write n ∨ ∃ v, st = .push n v))

/-- The pseudo-instruction HASH (R90): from any state, the eight words it reads are the digest of its bytes. -/
def Obligations.AssembledHashReadsTheDigest : Prop :=
  ∀ (s : State) (bs : List Byte) (es : List HostEvent), bs.length ≤ 2 ^ 61 - 1 → assemble (.hash bs) = some es →
    es = (accessesOf es).map .access ∧
    ∃ t reads, performAll (accessesOf es) s = .next t ∧ t.returned = reads ++ s.returned ∧
      reads.reverse = (List.range 8).map fun i =>
        { idx := BitVec.ofNat 4 (8 + i), data := (sha256 bs).toList.getD i 0 }
end

