-- ==== Sys2Proof/Laws/State.lean ====
section
/-! SUPPORT. One lemma for each field and each named update of State, so that no proof unfolds an update. -/

namespace Sys2Proof.Machine

variable (s : State)

@[simp] theorem State.raiseError_H (c : ErrorCode) : (s.raiseError c).H = s.H := by
  unfold State.raiseError; split <;> rfl
@[simp] theorem State.raiseError_buf (c : ErrorCode) : (s.raiseError c).buf = s.buf := by
  unfold State.raiseError; split <;> rfl
@[simp] theorem State.raiseError_curlen (c : ErrorCode) : (s.raiseError c).curlen = s.curlen := by
  unfold State.raiseError; split <;> rfl
@[simp] theorem State.raiseError_length (c : ErrorCode) : (s.raiseError c).length = s.length := by
  unfold State.raiseError; split <;> rfl
@[simp] theorem State.raiseError_phase (c : ErrorCode) : (s.raiseError c).phase = s.phase := by
  unfold State.raiseError; split <;> rfl
@[simp] theorem State.raiseError_pend (c : ErrorCode) : (s.raiseError c).pend = s.pend := by
  unfold State.raiseError; split <;> rfl
@[simp] theorem State.raiseError_din (c : ErrorCode) : (s.raiseError c).din = s.din := by
  unfold State.raiseError; split <;> rfl
@[simp] theorem State.raiseError_host (c : ErrorCode) : (s.raiseError c).host = s.host := by
  unfold State.raiseError; split <;> rfl
@[simp] theorem State.raiseError_returned (c : ErrorCode) : (s.raiseError c).returned = s.returned := by
  unfold State.raiseError; split <;> rfl
@[simp] theorem State.raiseError_waits (c : ErrorCode) : (s.raiseError c).waits = s.waits := by
  unfold State.raiseError; split <;> rfl
@[simp] theorem State.raiseError_draws (c : ErrorCode) : (s.raiseError c).draws = s.draws := by
  unfold State.raiseError; split <;> rfl
@[simp] theorem State.raiseError_err (c : ErrorCode) :
    (s.raiseError c).err = if s.err = .none then c else s.err := by
  unfold State.raiseError; split <;> rfl

@[simp] theorem State.clearError_H : (s.clearError).H = s.H := rfl
@[simp] theorem State.clearError_buf : (s.clearError).buf = s.buf := rfl
@[simp] theorem State.clearError_curlen : (s.clearError).curlen = s.curlen := rfl
@[simp] theorem State.clearError_length : (s.clearError).length = s.length := rfl
@[simp] theorem State.clearError_phase : (s.clearError).phase = s.phase := rfl
@[simp] theorem State.clearError_err : (s.clearError).err = .none := rfl
@[simp] theorem State.clearError_pend : (s.clearError).pend = s.pend := rfl
@[simp] theorem State.clearError_din : (s.clearError).din = s.din := rfl
@[simp] theorem State.clearError_host : (s.clearError).host = s.host := rfl
@[simp] theorem State.clearError_returned : (s.clearError).returned = s.returned := rfl
@[simp] theorem State.clearError_waits : (s.clearError).waits = s.waits := rfl
@[simp] theorem State.clearError_draws : (s.clearError).draws = s.draws := rfl

@[simp] theorem State.compressBuffer_H : (s.compressBuffer).H = compress s.H s.buf := rfl
@[simp] theorem State.compressBuffer_buf : (s.compressBuffer).buf = s.buf := rfl
@[simp] theorem State.compressBuffer_curlen : (s.compressBuffer).curlen = s.curlen := rfl
@[simp] theorem State.compressBuffer_length : (s.compressBuffer).length = s.length := rfl
@[simp] theorem State.compressBuffer_phase : (s.compressBuffer).phase = s.phase := rfl
@[simp] theorem State.compressBuffer_err : (s.compressBuffer).err = s.err := rfl
@[simp] theorem State.compressBuffer_pend : (s.compressBuffer).pend = s.pend + 1 := rfl
@[simp] theorem State.compressBuffer_din : (s.compressBuffer).din = s.din := rfl
@[simp] theorem State.compressBuffer_host : (s.compressBuffer).host = s.host := rfl
@[simp] theorem State.compressBuffer_returned : (s.compressBuffer).returned = s.returned := rfl
@[simp] theorem State.compressBuffer_waits : (s.compressBuffer).waits = s.waits := rfl
@[simp] theorem State.compressBuffer_draws : (s.compressBuffer).draws = s.draws := rfl

@[simp] theorem State.storeByte_H (b : Byte) : (s.storeByte b).H = s.H := rfl
@[simp] theorem State.storeByte_buf (b : Byte) : (s.storeByte b).buf = s.buf.set s.curlen.toNat b s.curlen.isLt := rfl
@[simp] theorem State.storeByte_curlen (b : Byte) : (s.storeByte b).curlen = s.curlen := rfl
@[simp] theorem State.storeByte_length (b : Byte) : (s.storeByte b).length = s.length := rfl
@[simp] theorem State.storeByte_phase (b : Byte) : (s.storeByte b).phase = s.phase := rfl
@[simp] theorem State.storeByte_err (b : Byte) : (s.storeByte b).err = s.err := rfl
@[simp] theorem State.storeByte_pend (b : Byte) : (s.storeByte b).pend = s.pend := rfl
@[simp] theorem State.storeByte_din (b : Byte) : (s.storeByte b).din = s.din := rfl
@[simp] theorem State.storeByte_host (b : Byte) : (s.storeByte b).host = s.host := rfl
@[simp] theorem State.storeByte_returned (b : Byte) : (s.storeByte b).returned = s.returned := rfl
@[simp] theorem State.storeByte_waits (b : Byte) : (s.storeByte b).waits = s.waits := rfl
@[simp] theorem State.storeByte_draws (b : Byte) : (s.storeByte b).draws = s.draws := rfl

@[simp] theorem State.coreStep_H : (s.coreStep).H = s.H := rfl
@[simp] theorem State.coreStep_buf : (s.coreStep).buf = s.buf := rfl
@[simp] theorem State.coreStep_curlen : (s.coreStep).curlen = s.curlen := rfl
@[simp] theorem State.coreStep_length : (s.coreStep).length = s.length := rfl
@[simp] theorem State.coreStep_phase : (s.coreStep).phase = s.phase := rfl
@[simp] theorem State.coreStep_err : (s.coreStep).err = s.err := rfl
@[simp] theorem State.coreStep_pend : (s.coreStep).pend = s.pend - 1 := rfl
@[simp] theorem State.coreStep_din : (s.coreStep).din = s.din := rfl
@[simp] theorem State.coreStep_host : (s.coreStep).host = s.host := rfl
@[simp] theorem State.coreStep_returned : (s.coreStep).returned = s.returned := rfl
@[simp] theorem State.coreStep_waits : (s.coreStep).waits = 0 := rfl
@[simp] theorem State.coreStep_draws : (s.coreStep).draws = s.draws + 1 := rfl

@[simp] theorem State.countWait_H : (s.countWait).H = s.H := rfl
@[simp] theorem State.countWait_buf : (s.countWait).buf = s.buf := rfl
@[simp] theorem State.countWait_curlen : (s.countWait).curlen = s.curlen := rfl
@[simp] theorem State.countWait_length : (s.countWait).length = s.length := rfl
@[simp] theorem State.countWait_phase : (s.countWait).phase = s.phase := rfl
@[simp] theorem State.countWait_err : (s.countWait).err = s.err := rfl
@[simp] theorem State.countWait_pend : (s.countWait).pend = s.pend := rfl
@[simp] theorem State.countWait_din : (s.countWait).din = s.din := rfl
@[simp] theorem State.countWait_host : (s.countWait).host = s.host := rfl
@[simp] theorem State.countWait_returned : (s.countWait).returned = s.returned := rfl
@[simp] theorem State.countWait_waits : (s.countWait).waits = s.waits + 1 := rfl
@[simp] theorem State.countWait_draws : (s.countWait).draws = s.draws := rfl

@[simp] theorem State.resetBlock_H : (s.resetBlock).H = State.reset.H := rfl
@[simp] theorem State.resetBlock_buf : (s.resetBlock).buf = State.reset.buf := rfl
@[simp] theorem State.resetBlock_curlen : (s.resetBlock).curlen = State.reset.curlen := rfl
@[simp] theorem State.resetBlock_length : (s.resetBlock).length = State.reset.length := rfl
@[simp] theorem State.resetBlock_phase : (s.resetBlock).phase = State.reset.phase := rfl
@[simp] theorem State.resetBlock_err : (s.resetBlock).err = State.reset.err := rfl
@[simp] theorem State.resetBlock_pend : (s.resetBlock).pend = State.reset.pend := rfl
@[simp] theorem State.resetBlock_din : (s.resetBlock).din = State.reset.din := rfl
@[simp] theorem State.resetBlock_host : (s.resetBlock).host = s.host := rfl
@[simp] theorem State.resetBlock_returned : (s.resetBlock).returned = s.returned := rfl
@[simp] theorem State.resetBlock_waits : (s.resetBlock).waits = State.reset.waits := rfl
@[simp] theorem State.resetBlock_draws : (s.resetBlock).draws = s.draws + 1 := rfl

@[simp] theorem State.withCommand_H (v : Word) : (s.withCommand v).H = s.H := rfl
@[simp] theorem State.withCommand_buf (v : Word) : (s.withCommand v).buf = s.buf := rfl
@[simp] theorem State.withCommand_curlen (v : Word) : (s.withCommand v).curlen = s.curlen := rfl
@[simp] theorem State.withCommand_length (v : Word) : (s.withCommand v).length = s.length := rfl
@[simp] theorem State.withCommand_phase (v : Word) : (s.withCommand v).phase = s.phase := rfl
@[simp] theorem State.withCommand_err (v : Word) : (s.withCommand v).err = s.err := rfl
@[simp] theorem State.withCommand_pend (v : Word) : (s.withCommand v).pend = 0 := rfl
@[simp] theorem State.withCommand_din (v : Word) : (s.withCommand v).din = s.din := rfl
@[simp] theorem State.withCommand_host (v : Word) : (s.withCommand v).host = .access (commandAccess v) :: s.host := rfl
@[simp] theorem State.withCommand_returned (v : Word) : (s.withCommand v).returned = s.returned := rfl
@[simp] theorem State.withCommand_waits (v : Word) : (s.withCommand v).waits = s.waits := rfl
@[simp] theorem State.withCommand_draws (v : Word) : (s.withCommand v).draws = s.draws := rfl

end Sys2Proof.Machine
end

