-- ==== Sys2Proof/Laws/Ops.lean ====
section
/-! SUPPORT. What the shared operations can do: raising an error, absorbing bytes, and the padding. -/

namespace Sys2Proof.Machine

/-! ## Raising an error -/

/-- Raising an error gives the state with only `err` changed, and only if it was NONE (R201). -/
theorem State.raiseError_eq (s : State) (c : ErrorCode) :
    s.raiseError c = { s with err := if s.err = .none then c else s.err } := by
  unfold State.raiseError; split <;> rfl

/-! ## Absorbing one byte -/

/-- A byte that leaves room in the buffer. -/
theorem State.absorb_open {s : State} (b : Byte) (h : s.curlen.toNat + 1 < 64) :
    s.absorb b = { s.storeByte b with curlen := s.curlen + 1 } := by
  unfold State.absorb; rw [if_neg (by omega)]

/-- The byte that fills the buffer. -/
theorem State.absorb_full {s : State} (b : Byte) (h : s.curlen.toNat = 63) :
    s.absorb b = { (s.storeByte b).compressBuffer with curlen := 0 } := by
  unfold State.absorb; rw [if_pos (by omega)]

/-- What absorbing a byte can change: `H`, `buf`, `curlen` and `pend`, and no other field (R152). -/
theorem State.absorb_frame (s : State) (b : Byte) :
    s.absorb b =
      { s with H := (s.absorb b).H, buf := (s.absorb b).buf, curlen := (s.absorb b).curlen, pend := (s.absorb b).pend } := by
  unfold State.absorb; split <;> rfl

theorem State.absorb_buf (s : State) (b : Byte) : (s.absorb b).buf = s.buf.set s.curlen.toNat b s.curlen.isLt := by
  unfold State.absorb; split <;> rfl

theorem State.absorb_curlen (s : State) (b : Byte) : (s.absorb b).curlen = s.curlen + 1 := by
  unfold State.absorb
  have := s.curlen.isLt
  split
  · apply BitVec.eq_of_toNat_eq; simp; omega
  · rfl

theorem State.absorb_pend (s : State) (b : Byte) :
    (s.absorb b).pend = s.pend + (s.curlen.toNat + 1) / 64 := by
  unfold State.absorb
  have := s.curlen.isLt
  split
  · simp; omega
  · simp; omega

theorem State.absorb_H (s : State) (b : Byte) :
    (s.absorb b).H = if s.curlen.toNat + 1 = 64 then compress s.H (s.absorb b).buf else s.H := by
  unfold State.absorb; split <;> simp_all

@[simp] theorem State.absorb_length (s : State) (b : Byte) : (s.absorb b).length = s.length := by
  rw [State.absorb_frame]
@[simp] theorem State.absorb_phase (s : State) (b : Byte) : (s.absorb b).phase = s.phase := by
  rw [State.absorb_frame]
@[simp] theorem State.absorb_err (s : State) (b : Byte) : (s.absorb b).err = s.err := by
  rw [State.absorb_frame]
@[simp] theorem State.absorb_din (s : State) (b : Byte) : (s.absorb b).din = s.din := by
  rw [State.absorb_frame]

@[simp] theorem State.absorb_host (s : State) (b : Byte) : (s.absorb b).host = s.host := by
  rw [State.absorb_frame]
@[simp] theorem State.absorb_returned (s : State) (b : Byte) : (s.absorb b).returned = s.returned := by
  rw [State.absorb_frame]
@[simp] theorem State.absorb_waits (s : State) (b : Byte) : (s.absorb b).waits = s.waits := by
  rw [State.absorb_frame]
@[simp] theorem State.absorb_draws (s : State) (b : Byte) : (s.absorb b).draws = s.draws := by
  rw [State.absorb_frame]

/-- Absorbing a byte does not see `length`, so setting `length` commutes with it. -/
theorem State.absorb_with_length (s : State) (b : Byte) (n : Length) :
    ({ s with length := n } : State).absorb b = { s.absorb b with length := n } := by
  unfold State.absorb; split <;> rfl

/-! ## Absorbing byte strings -/

theorem State.absorbAll_append (s : State) (as bs : List Byte) :
    s.absorbAll (as ++ bs) = (s.absorbAll as).absorbAll bs := by
  induction as generalizing s with
  | nil => rfl
  | cons a as ih => exact ih (s.absorb a)

/-- Absorbing bytes changes at most `H`, `buf`, `curlen` and `pend` (R152). -/
theorem State.absorbAll_kept (s : State) (bs : List Byte) :
    (s.absorbAll bs).length = s.length ∧ (s.absorbAll bs).phase = s.phase ∧ (s.absorbAll bs).err = s.err ∧
    (s.absorbAll bs).din = s.din ∧ (s.absorbAll bs).host = s.host ∧ (s.absorbAll bs).returned = s.returned ∧
    (s.absorbAll bs).waits = s.waits ∧ (s.absorbAll bs).draws = s.draws := by
  induction bs generalizing s with
  | nil => simp [State.absorbAll]
  | cons b bs ih => simpa [State.absorbAll] using ih (s.absorb b)

/-- The same as one equation: everything but those four fields is what it was. -/
theorem State.absorbAll_frame (s : State) (bs : List Byte) :
    s.absorbAll bs =
      { s with H := (s.absorbAll bs).H, buf := (s.absorbAll bs).buf, curlen := (s.absorbAll bs).curlen,
               pend := (s.absorbAll bs).pend } := by
  obtain ⟨h1, h2, h3, h4, h5, h6, h7, h8⟩ := State.absorbAll_kept s bs
  generalize s.absorbAll bs = t at *
  obtain ⟨⟩ := t
  simp_all

theorem State.absorbAll_with_length (s : State) (bs : List Byte) (n : Length) :
    ({ s with length := n } : State).absorbAll bs = { s.absorbAll bs with length := n } := by
  induction bs generalizing s with
  | nil => rfl
  | cons b bs ih =>
    show (({ s with length := n } : State).absorb b).absorbAll bs = _
    rw [State.absorb_with_length, ih]
    rfl

/-- Absorbing bytes does not see the host's accesses, so setting them commutes with it. -/
theorem State.absorbAll_with_host (s : State) (bs : List Byte) (es : List HostEvent) :
    ({ s with host := es } : State).absorbAll bs = { s.absorbAll bs with host := es } := by
  induction bs generalizing s with
  | nil => rfl
  | cons b bs ih =>
    have h : ({ s with host := es } : State).absorb b = { s.absorb b with host := es } := by
      unfold State.absorb; split <;> rfl
    show (({ s with host := es } : State).absorb b).absorbAll bs = _
    rw [h, ih]
    rfl

/-- `curlen` advances modulo 64 (R24, R160). -/
theorem State.absorbAll_curlen (s : State) (bs : List Byte) :
    (s.absorbAll bs).curlen.toNat = (s.curlen.toNat + bs.length) % 64 := by
  induction bs generalizing s with
  | nil => have := s.curlen.isLt; simp only [State.absorbAll, List.length_nil]; omega
  | cons b bs ih =>
    show ((s.absorb b).absorbAll bs).curlen.toNat = _
    rw [ih, State.absorb_curlen]
    simp; omega

/-- One compression for each time `curlen` passes 64 (R160, R174). -/
theorem State.absorbAll_pend (s : State) (bs : List Byte) :
    (s.absorbAll bs).pend = s.pend + (s.curlen.toNat + bs.length) / 64 := by
  induction bs generalizing s with
  | nil => have := s.curlen.isLt; simp only [State.absorbAll, List.length_nil]; omega
  | cons b bs ih =>
    show ((s.absorb b).absorbAll bs).pend = _
    have := s.curlen.isLt
    rw [ih, State.absorb_curlen, State.absorb_pend]
    simp; omega

/-- Message bytes are absorbed like any bytes, and `length` counts 8 for each (R150, R155). -/
theorem State.absorbMessage_eq (s : State) (bs : List Byte) :
    s.absorbMessage bs = { s.absorbAll bs with length := s.length + BitVec.ofNat 64 (8 * bs.length) } := by
  induction bs generalizing s with
  | nil => simp [State.absorbMessage, State.absorbAll]
  | cons b bs ih =>
    show State.absorbMessage { s.absorb b with length := s.length + 8 } bs = _
    rw [ih, State.absorbAll_with_length]
    have : s.length + 8 + BitVec.ofNat 64 (8 * bs.length) = s.length + BitVec.ofNat 64 (8 * (b :: bs).length) := by
      apply BitVec.eq_of_toNat_eq; simp; omega
    simp only [this]
    rfl

/-! ## The padding -/

theorem State.padZeros_eq (s : State) (n : Nat) (h : (56 + 64 - s.curlen.toNat) % 64 ≤ n) :
    s.padZeros n = s.absorbAll (List.replicate ((56 + 64 - s.curlen.toNat) % 64) 0x00) := by
  induction n generalizing s with
  | zero =>
    have : (56 + 64 - s.curlen.toNat) % 64 = 0 := by omega
    rw [this]; rfl
  | succ n ih =>
    have hlt := s.curlen.isLt
    unfold State.padZeros
    split
    · rename_i h56
      rw [h56]; rfl
    · rename_i h56
      have hne : s.curlen.toNat ≠ 56 := fun h' => h56 (BitVec.eq_of_toNat_eq (by simpa using h'))
      have hc : (s.absorb 0x00).curlen.toNat = (s.curlen.toNat + 1) % 64 := by
        rw [State.absorb_curlen]; simp
      have hz : (56 + 64 - s.curlen.toNat) % 64 = (56 + 64 - (s.absorb 0x00).curlen.toNat) % 64 + 1 := by
        rw [hc]; omega
      rw [ih _ (by omega), hz]
      rfl

/-- The bytes the padding absorbs: 0x80, `(55 - curlen) mod 64` zeros and the length field (R172, R174). -/
theorem State.pad_eq (s : State) (L : Length) :
    s.pad L = s.absorbAll (0x80 :: (List.replicate ((55 + 64 - s.curlen.toNat) % 64) 0x00 ++ lengthBytes L)) := by
  have hlt := s.curlen.isLt
  have hc : (s.absorb 0x80).curlen.toNat = (s.curlen.toNat + 1) % 64 := by
    rw [State.absorb_curlen]; simp
  have hz : (56 + 64 - (s.absorb 0x80).curlen.toNat) % 64 = (55 + 64 - s.curlen.toNat) % 64 := by
    rw [hc]; omega
  unfold State.pad
  rw [State.padZeros_eq _ _ (by omega), hz, ← State.absorbAll_append]
  rfl

/-- The padding changes at most `H`, `buf`, `curlen` and `pend` (R172). -/
theorem State.pad_kept (s : State) (L : Length) :
    (s.pad L).length = s.length ∧ (s.pad L).phase = s.phase ∧ (s.pad L).err = s.err ∧ (s.pad L).din = s.din ∧
    (s.pad L).host = s.host ∧ (s.pad L).returned = s.returned ∧ (s.pad L).waits = s.waits ∧
    (s.pad L).draws = s.draws := by
  rw [State.pad_eq]
  exact State.absorbAll_kept s _

theorem messageBytes_length (din : Word) (nb : Nat) : (messageBytes din nb).length = nb := by
  simp [messageBytes]

theorem lengthBytes_length (L : Length) : (lengthBytes L).length = 8 := by
  simp [lengthBytes]

end Sys2Proof.Machine
end

