-- ==== Sys2Proof/Laws/Buffer.lean ====
section
/-! SUPPORT. What absorbing a run of bytes does to the staging buffer: within one block, and up to the byte that fills
it (R152, R153). -/

namespace Sys2Proof.Machine

/-- A buffer with a run of bytes laid over it from index `c` on. -/
def overlay (buf : Vector Byte 64) (c : Nat) (bs : List Byte) : Vector Byte 64 :=
  Vector.ofFn fun j : Fin 64 => if c ≤ j.val ∧ j.val < c + bs.length then bs.getD (j.val - c) 0 else buf[j]

theorem overlay_getElem (buf : Vector Byte 64) (c : Nat) (bs : List Byte) (j : Nat) (hj : j < 64) :
    (overlay buf c bs)[j] = if c ≤ j ∧ j < c + bs.length then bs.getD (j - c) 0 else buf[j] := by
  simp [overlay]

theorem overlay_nil (buf : Vector Byte 64) (c : Nat) : overlay buf c [] = buf := by
  apply Vector.ext
  intro j hj
  rw [overlay_getElem, if_neg (by simp)]

theorem overlay_cons (buf : Vector Byte 64) (c : Nat) (hc : c < 64) (b : Byte) (bs : List Byte) :
    overlay (buf.set c b hc) (c + 1) bs = overlay buf c (b :: bs) := by
  apply Vector.ext
  intro j hj
  rw [overlay_getElem, overlay_getElem, Vector.getElem_set]
  by_cases h1 : j = c
  · subst h1
    rw [if_neg (by omega), if_pos rfl, if_pos (by simp)]
    simp
  · by_cases h2 : c + 1 ≤ j ∧ j < c + 1 + bs.length
    · rw [if_pos h2, if_pos (by simp; omega)]
      obtain ⟨k, rfl⟩ : ∃ k, j = c + 1 + k := ⟨j - (c + 1), by omega⟩
      rw [show c + 1 + k - (c + 1) = k by omega, show c + 1 + k - c = k + 1 by omega]
      simp
    · rw [if_neg h2, if_neg (by omega), if_neg (by simp; omega)]

/-- Bytes that leave room in the buffer: no compression (R152). -/
theorem State.absorbAll_open (s : State) (bs : List Byte) (h : s.curlen.toNat + bs.length < 64) :
    s.absorbAll bs =
      { s with buf := overlay s.buf s.curlen.toNat bs, curlen := BitVec.ofNat 6 (s.curlen.toNat + bs.length) } := by
  induction bs generalizing s with
  | nil => simp [State.absorbAll, overlay_nil]
  | cons b bs ih =>
    simp only [List.length_cons] at h
    have hc : (s.absorb b).curlen.toNat = s.curlen.toNat + 1 := by
      rw [State.absorb_curlen]; simp; omega
    show (s.absorb b).absorbAll bs = _
    rw [ih _ (by omega), hc, State.absorb_open b (by omega)]
    simp only [State.storeByte, overlay_cons, List.length_cons]
    rw [Nat.add_right_comm, Nat.add_assoc]

/-- Bytes the last of which fills the buffer: one compression, of the buffer with those bytes in it (R152, R153). -/
theorem State.absorbAll_fill (s : State) (bs : List Byte) (h : s.curlen.toNat + bs.length = 64) :
    s.absorbAll bs =
      { s with H := compress s.H (overlay s.buf s.curlen.toNat bs), buf := overlay s.buf s.curlen.toNat bs,
               curlen := 0, pend := s.pend + 1 } := by
  induction bs generalizing s with
  | nil => have := s.curlen.isLt; simp at h; omega
  | cons b bs ih =>
    simp only [List.length_cons] at h
    show (s.absorb b).absorbAll bs = _
    by_cases hb : bs = []
    · subst hb
      rw [State.absorb_full b (by simpa using h)]
      simp only [State.absorbAll, State.compressBuffer, State.storeByte]
      rw [← overlay_cons _ _ s.curlen.isLt, overlay_nil]
    · have hl : 0 < bs.length := List.length_pos_iff.mpr hb
      have hc : (s.absorb b).curlen.toNat = s.curlen.toNat + 1 := by
        rw [State.absorb_curlen]; simp; omega
      rw [ih _ (by omega), hc, State.absorb_open b (by omega)]
      simp only [State.storeByte, overlay_cons]

/-- Bytes that pass the end of one block: those up to it fill the buffer, the rest start the next (R160). -/
theorem State.absorbAll_cross (s : State) (bs : List Byte) (h : 64 ≤ s.curlen.toNat + bs.length)
    (h' : s.curlen.toNat + bs.length < 128) :
    s.absorbAll bs =
      { s with
        H := compress s.H (overlay s.buf s.curlen.toNat (bs.take (64 - s.curlen.toNat)))
        buf := overlay (overlay s.buf s.curlen.toNat (bs.take (64 - s.curlen.toNat))) 0 (bs.drop (64 - s.curlen.toNat))
        curlen := BitVec.ofNat 6 (s.curlen.toNat + bs.length - 64)
        pend := s.pend + 1 } := by
  have hc : s.curlen.toNat < 64 := s.curlen.isLt
  obtain ⟨k, hk⟩ : ∃ k, k = 64 - s.curlen.toNat := ⟨_, rfl⟩
  rw [← hk]
  have htake : (bs.take k).length = k := by rw [List.length_take]; omega
  have hdrop : (bs.drop k).length = bs.length - k := List.length_drop
  conv => lhs; rw [← List.take_append_drop k bs]
  rw [State.absorbAll_append, State.absorbAll_fill s _ (by omega)]
  rw [State.absorbAll_open _ _ (by simp only [hdrop]; simp; omega)]
  simp only [hdrop, BitVec.ofNat_eq_ofNat, BitVec.toNat_ofNat, Nat.zero_mod]
  rw [show 0 + (bs.length - k) = s.curlen.toNat + bs.length - 64 by omega]

end Sys2Proof.Machine
end

