-- ==== Sys2Proof/Laws/Commands.lean ====
section
/-! SUPPORT. What each command and each port access can do, said once: the outcome under each check, and one lemma
that lists the outcomes. -/

namespace Sys2Proof.Machine

theorem Phase.acceptsData_iff (p : Phase) : p.acceptsData = true ↔ p = .initialized ∨ p = .accumulating := by
  cases p <;> decide

theorem Phase.not_acceptsData_iff (p : Phase) : p.acceptsData = false ↔ p = .uninit ∨ p = .finalized := by
  cases p <;> decide

/-! ## WRITE -/

section
variable (s : State) (nb : Nat)

/-- A pending error drops a WRITE (R204). -/
theorem execWrite_dropped (hnb : 1 ≤ nb ∧ nb ≤ 4) (he : s.err ≠ .none) : execWrite nb s = .next s := by
  unfold execWrite
  rw [if_neg (not_not.mpr hnb), if_pos he]

/-- A WRITE outside INITIALIZED and ACCUMULATING (R203). -/
theorem execWrite_invalidState (hnb : 1 ≤ nb ∧ nb ≤ 4) (he : s.err = .none) (hp : s.phase.acceptsData = false) :
    execWrite nb s = .next { s with err := .invalidState } := by
  unfold execWrite
  rw [if_neg (not_not.mpr hnb), if_neg (not_not.mpr he), if_pos hp, State.raiseError_eq, if_pos he]

/-- A WRITE whose bytes do not fit the bit count (R157). -/
theorem execWrite_lengthOverflow (hnb : 1 ≤ nb ∧ nb ≤ 4) (he : s.err = .none) (hp : s.phase.acceptsData = true)
    (hl : 2 ^ 64 - 1 < s.length.toNat + 8 * nb) : execWrite nb s = .next { s with err := .lengthOverflow } := by
  unfold execWrite State.lengthWouldOverflow
  rw [if_neg (not_not.mpr hnb), if_neg (not_not.mpr he), if_neg (by simp [hp]), if_pos (decide_eq_true hl),
    State.raiseError_eq, if_pos he]

/-- A WRITE that passes its checks (R150). -/
theorem execWrite_accepted (hnb : 1 ≤ nb ∧ nb ≤ 4) (he : s.err = .none) (hp : s.phase.acceptsData = true)
    (hl : s.length.toNat + 8 * nb ≤ 2 ^ 64 - 1) :
    execWrite nb s = .next { s.absorbAll (messageBytes s.din nb) with
      length := s.length + BitVec.ofNat 64 (8 * nb), phase := .accumulating } := by
  unfold execWrite State.lengthWouldOverflow
  rw [if_neg (not_not.mpr hnb), if_neg (not_not.mpr he), if_neg (by simp [hp]), if_neg (by simpa using hl),
    State.absorbMessage_eq, messageBytes_length]

/-- The outcomes of WRITE, all of them. -/
theorem execWrite_cases :
    (¬ (1 ≤ nb ∧ nb ≤ 4) ∧ execWrite nb s = .refused .byteCountOutOfRange) ∨
    ((1 ≤ nb ∧ nb ≤ 4) ∧
      ((s.err ≠ .none ∧ execWrite nb s = .next s) ∨
       (s.err = .none ∧ s.phase.acceptsData = false ∧ execWrite nb s = .next { s with err := .invalidState }) ∨
       (s.err = .none ∧ s.phase.acceptsData = true ∧ 2 ^ 64 - 1 < s.length.toNat + 8 * nb ∧
         execWrite nb s = .next { s with err := .lengthOverflow }) ∨
       (s.err = .none ∧ s.phase.acceptsData = true ∧ s.length.toNat + 8 * nb ≤ 2 ^ 64 - 1 ∧
         execWrite nb s = .next { s.absorbAll (messageBytes s.din nb) with
           length := s.length + BitVec.ofNat 64 (8 * nb), phase := .accumulating }))) := by
  by_cases hnb : 1 ≤ nb ∧ nb ≤ 4
  · refine .inr ⟨hnb, ?_⟩
    by_cases he : s.err = .none
    · cases hp : s.phase.acceptsData with
      | false => exact .inr (.inl ⟨he, rfl, execWrite_invalidState s nb hnb he hp⟩)
      | true =>
        by_cases hl : s.length.toNat + 8 * nb ≤ 2 ^ 64 - 1
        · exact .inr (.inr (.inr ⟨he, rfl, hl, execWrite_accepted s nb hnb he hp hl⟩))
        · exact .inr (.inr (.inl ⟨he, rfl, by omega, execWrite_lengthOverflow s nb hnb he hp (by omega)⟩))
    · exact .inl ⟨he, execWrite_dropped s nb hnb he⟩
  · exact .inl ⟨hnb, if_pos hnb⟩

end

/-! ## CLOSE -/

section
variable (s : State)

/-- A pending error drops a CLOSE (R204). -/
theorem execClose_dropped (he : s.err ≠ .none) : execClose s = .next s := by
  unfold execClose
  rw [if_pos he]

/-- A CLOSE outside INITIALIZED and ACCUMULATING (R203). -/
theorem execClose_invalidState (he : s.err = .none) (hp : s.phase.acceptsData = false) :
    execClose s = .next { s with err := .invalidState } := by
  unfold execClose
  rw [if_neg (not_not.mpr he), if_pos hp, State.raiseError_eq, if_pos he]

/-- A CLOSE that passes its checks (R170). -/
theorem execClose_accepted (he : s.err = .none) (hp : s.phase.acceptsData = true) :
    execClose s = .next { s.pad s.length with phase := .finalized } := by
  unfold execClose
  rw [if_neg (not_not.mpr he), if_neg (by simp [hp])]

/-- The outcomes of CLOSE, all of them. -/
theorem execClose_cases :
    (s.err ≠ .none ∧ execClose s = .next s) ∨
    (s.err = .none ∧ s.phase.acceptsData = false ∧ execClose s = .next { s with err := .invalidState }) ∨
    (s.err = .none ∧ s.phase.acceptsData = true ∧
      execClose s = .next { s.pad s.length with phase := .finalized }) := by
  by_cases he : s.err = .none
  · cases hp : s.phase.acceptsData with
    | false => exact .inr (.inl ⟨he, rfl, execClose_invalidState s he hp⟩)
    | true => exact .inr (.inr ⟨he, rfl, execClose_accepted s he hp⟩)
  · exact .inl ⟨he, execClose_dropped s he⟩

end

/-! ## Decoding and the port -/

/-- A word that decodes to a WRITE gives it 1 to 4 bytes (R82). -/
theorem decode_write_bounds {v : Word} {nb : Nat} (h : decode v = .ok (.write nb)) : 1 ≤ nb ∧ nb ≤ 4 := by
  unfold decode at h
  split at h
  · cases h
  · split at h
    · cases h
    · split at h
      · cases h
        have := (nbm1Field v).isLt
        omega
      · split at h
        · cases h
        · split at h
          · cases h
          · split at h <;> cases h

/-- The outcomes of a port access, all of them: which access it is, and the state it leaves (R54, R57). -/
theorem perform_cases (a : PortAccess) (s : State) :
    (a.we = false ∧
      perform a s = .next { s with returned := { idx := a.idx, data := busRead a.idx s } :: s.returned }) ∨
    (a.we = true ∧ a.idx = 2 ∧ perform a s = .next { s with din := a.wdata }) ∨
    (a.we = true ∧ a.idx ≠ 0 ∧ a.idx ≠ 2 ∧ perform a s = .next (s.raiseError .accessError)) ∨
    (a.we = true ∧ a.idx = 0 ∧ (∃ e, decode a.wdata = .error e) ∧ perform a s = .next (s.raiseError .illegalCmd)) ∨
    (a.we = true ∧ a.idx = 0 ∧ ∃ i, decode a.wdata = .ok i ∧ perform a s = exec i s) := by
  unfold perform
  cases hw : a.we with
  | false => exact .inl ⟨rfl, rfl⟩
  | true =>
    refine .inr ?_
    simp only [if_true, true_and]
    unfold busWrite
    by_cases h0 : a.idx = 0
    · refine .inr (.inr ?_)
      rw [if_pos h0]
      unfold command
      cases hd : decode a.wdata with
      | error e => exact .inl ⟨h0, ⟨e, rfl⟩, rfl⟩
      | ok i => exact .inr ⟨h0, i, rfl, rfl⟩
    · rw [if_neg h0]
      by_cases h2 : a.idx = 2
      · rw [if_pos h2]
        exact .inl ⟨h2, rfl⟩
      · rw [if_neg h2]
        exact .inr (.inl ⟨h0, h2, rfl⟩)

end Sys2Proof.Machine
end

