-- ==== Sys2Proof/Laws/PerInstr.lean ====
section
/-! SUPPORT. Facts about every instruction as syntax, one lemma per constructor. -/

namespace Sys2Proof.Laws

/-- A well-formed command encodes to a word that is legal by the formula of R85 and reads back as the command (R84,
R86). -/
def EncodeLegal.Statement (i : Instr) : Prop :=
  i.wellFormed = true → legal (encode i) = true ∧ decode (encode i) = .ok i

theorem EncodeLegal.nop : EncodeLegal.Statement .nop := fun _ => by decide

theorem EncodeLegal.init : EncodeLegal.Statement .init := fun _ => by decide

theorem EncodeLegal.write (nb : Nat) : EncodeLegal.Statement (.write nb) := by
  intro h
  have h' : 1 ≤ nb ∧ nb ≤ 4 := by simpa [Instr.wellFormed] using h
  obtain rfl | rfl | rfl | rfl : nb = 1 ∨ nb = 2 ∨ nb = 3 ∨ nb = 4 := by omega
  all_goals decide

theorem EncodeLegal.close : EncodeLegal.Statement .close := fun _ => by decide

end Sys2Proof.Laws
end

