-- ==== Sys2Proof/Laws/Port.lean ====
section
/-! SUPPORT. Accesses one after another, the commands they carry and the bytes they feed, one access at a time. -/

namespace Sys2Proof.Machine

/-! ## Accesses that carry a command -/

/-- An access that carries a command performs it (R57, R86). -/
theorem perform_of_carries {a : PortAccess} {i : Instr} (h : a.Carries i) (s : State) : perform a s = exec i s := by
  simp [perform, h.1, busWrite, h.2.1, command, h.2.2]

/-- An access carries at most one command. -/
theorem PortAccess.carries_unique {a : PortAccess} {i j : Instr} (h : a.Carries i) (h' : a.Carries j) : i = j := by
  have := h.2.2.symm.trans h'.2.2
  cases this
  rfl

/-! ## What an access does not see, and what it never lowers -/

/-- A command does not see the host's further accesses. -/
theorem exec_with_host {i : Instr} {s t : State} (es : List HostEvent) (h : exec i s = .next t) :
    exec i { s with host := es } = .next { t with host := es } := by
  cases i with
  | nop => cases h; rfl
  | init => cases h; rfl
  | write nb =>
    replace h : execWrite nb s = .next t := h
    show execWrite nb _ = _
    rcases execWrite_cases s nb with ⟨_, e⟩ | ⟨hb, ⟨he, e⟩ | ⟨he, hp, e⟩ | ⟨he, hp, hl, e⟩ | ⟨he, hp, hl, e⟩⟩ <;>
      rw [e] at h <;> cases h
    · exact execWrite_dropped _ nb hb he
    · exact execWrite_invalidState _ nb hb he hp
    · exact execWrite_lengthOverflow _ nb hb he hp hl
    · rw [execWrite_accepted { s with host := es } nb hb he hp hl, State.absorbAll_with_host]
  | close =>
    replace h : execClose s = .next t := h
    show execClose _ = _
    rcases execClose_cases s with ⟨he, e⟩ | ⟨he, hp, e⟩ | ⟨he, hp, e⟩ <;> rw [e] at h <;> cases h
    · exact execClose_dropped _ he
    · exact execClose_invalidState _ he hp
    · rw [execClose_accepted { s with host := es } he hp, State.pad_eq, State.pad_eq, State.absorbAll_with_host]

/-- An access does not see the host's further accesses. -/
theorem perform_with_host {a : PortAccess} {s t : State} (es : List HostEvent) (h : perform a s = .next t) :
    perform a { s with host := es } = .next { t with host := es } := by
  rcases perform_cases a s with ⟨hw, e⟩ | ⟨hw, h2, e⟩ | ⟨hw, h0, h2, e⟩ | ⟨hw, h0, ⟨d, hd⟩, e⟩ | ⟨hw, h0, i, hd, e⟩ <;>
    rw [e] at h
  · cases h
    unfold perform
    rw [hw]
    rfl
  · cases h
    simp only [perform, hw, busWrite, h2, if_true]
    rfl
  · cases h
    simp only [perform, hw, busWrite, h0, h2, if_true, if_false, State.raiseError_eq]
  · cases h
    simp only [perform, hw, busWrite, h0, if_true, command, hd, State.raiseError_eq]
  · rw [perform_of_carries ⟨hw, h0, hd⟩]
    exact exec_with_host es h

/-- A command never lowers `pend` (R39). -/
theorem exec_pend_le {i : Instr} {s t : State} (h : exec i s = .next t) : s.pend ≤ t.pend := by
  cases i with
  | nop => cases h; exact Nat.le_refl _
  | init => cases h; exact Nat.le_refl _
  | write nb =>
    replace h : execWrite nb s = .next t := h
    rcases execWrite_cases s nb with ⟨_, e⟩ | ⟨_, ⟨_, e⟩ | ⟨_, _, e⟩ | ⟨_, _, _, e⟩ | ⟨_, _, _, e⟩⟩ <;>
      rw [e] at h <;> cases h <;> try exact Nat.le_refl _
    simp only [State.absorbAll_pend]
    exact Nat.le_add_right _ _
  | close =>
    replace h : execClose s = .next t := h
    rcases execClose_cases s with ⟨_, e⟩ | ⟨_, _, e⟩ | ⟨_, _, e⟩ <;> rw [e] at h <;> cases h <;>
      try exact Nat.le_refl _
    simp only [State.pad_eq, State.absorbAll_pend]
    exact Nat.le_add_right _ _

/-- An access never lowers `pend`: only the core agent's step and reset do (R39). -/
theorem perform_pend_le {a : PortAccess} {s t : State} (h : perform a s = .next t) : s.pend ≤ t.pend := by
  rcases perform_cases a s with ⟨_, e⟩ | ⟨_, _, e⟩ | ⟨_, _, _, e⟩ | ⟨_, _, _, e⟩ | ⟨_, _, i, _, e⟩ <;> rw [e] at h
  · cases h; exact Nat.le_refl _
  · cases h; exact Nat.le_refl _
  · cases h; rw [State.raiseError_eq]
  · cases h; rw [State.raiseError_eq]
  · exact exec_pend_le h

/-! ## Accesses in order (R64) -/

theorem performAll_cons {a : PortAccess} {as : List PortAccess} {s t : State} (h : perform a s = .next t) :
    performAll (a :: as) s = performAll as t := by
  rw [performAll, h]

theorem performAll_append (as bs : List PortAccess) {s t : State} (h : performAll as s = .next t) :
    performAll (as ++ bs) s = performAll bs t := by
  induction as generalizing s with
  | nil => cases h; rfl
  | cons a as ih =>
    cases hp : perform a s with
    | next u =>
      rw [performAll_cons hp] at h
      rw [List.cons_append, performAll_cons hp]
      exact ih h
    | fault r => rw [performAll, hp] at h; cases h
    | refused r => rw [performAll, hp] at h; cases h

/-! ## The bytes fed, one access at a time -/

theorem fedBytes_cons_din {din : Word} {a : PortAccess} {as : List PortAccess} (h : a.we = true) (hi : a.idx = 2) :
    fedBytes din (a :: as) = fedBytes a.wdata as := by
  rw [fedBytes, if_pos ⟨h, hi⟩]

theorem fedBytes_cons_read {din : Word} {a : PortAccess} {as : List PortAccess} (h : a.we = false) :
    fedBytes din (a :: as) = fedBytes din as := by
  rw [fedBytes, if_neg (by simp [h]), if_neg (by simp [h])]

theorem fedBytes_cons_write {din : Word} {a : PortAccess} {as : List PortAccess} {nb : Nat}
    (h : a.Carries (.write nb)) : fedBytes din (a :: as) = messageBytes din nb ++ fedBytes din as := by
  rw [fedBytes, if_neg (by simp [h.2.1]), if_pos ⟨h.1, h.2.1⟩, h.2.2]

theorem fedBytes_cons_command {din : Word} {a : PortAccess} {as : List PortAccess} {i : Instr} (h : a.Carries i)
    (hi : ∀ nb, i ≠ .write nb) : fedBytes din (a :: as) = fedBytes din as := by
  rw [fedBytes, if_neg (by simp [h.2.1]), if_pos ⟨h.1, h.2.1⟩, h.2.2]
  cases i with
  | write nb => exact absurd rfl (hi nb)
  | nop => rfl
  | init => rfl
  | close => rfl

end Sys2Proof.Machine
end

