-- ==== Sys2Proof/Laws/Reference.lean ====
section
/-! SUPPORT. The closed form of whole blocks, one block at a time, and what absorbing depends on. -/

namespace Sys2Proof.Machine

/-- Two byte strings that agree on their first 64 bytes are the same block. -/
theorem toBlock_congr {S T : List Byte} (h : ∀ j, j < 64 → S.getD j 0 = T.getD j 0) : toBlock S = toBlock T := by
  apply Vector.ext
  intro j hj
  simp only [toBlock, Vector.getElem_ofFn]
  exact h j hj

/-- One more block is compressed last. -/
theorem compressBlocks_succ (q : Nat) (H : Vector Word 8) (S : List Byte) :
    compressBlocks (q + 1) H S = compress (compressBlocks q H S) (toBlock (S.drop (64 * q))) := by
  induction q generalizing H S with
  | zero => simp [compressBlocks]
  | succ q ih => rw [compressBlocks, ih, compressBlocks, List.drop_drop, Nat.mul_succ, Nat.add_comm 64]

/-- Bytes after the blocks compressed do not matter. -/
theorem compressBlocks_append (q : Nat) (H : Vector Word 8) (S T : List Byte) (h : 64 * q ≤ S.length) :
    compressBlocks q H (S ++ T) = compressBlocks q H S := by
  induction q generalizing H S with
  | zero => rfl
  | succ q ih =>
    rw [compressBlocks, compressBlocks]
    have hb : toBlock (S ++ T) = toBlock S := by
      apply toBlock_congr
      intro j hj
      simp only [List.getD]
      rw [List.getElem?_append_left (by omega)]
    rw [hb, List.drop_append_of_le_length (by omega), ih _ _ (by simp; omega)]

/-- Absorbing a byte reads nothing but `H`, `buf` and `curlen` (R152). -/
theorem State.absorb_congr {s t : State} (b : Byte) (hH : s.H = t.H) (hb : s.buf = t.buf) (hc : s.curlen = t.curlen) :
    (s.absorb b).H = (t.absorb b).H ∧ (s.absorb b).buf = (t.absorb b).buf ∧
    (s.absorb b).curlen = (t.absorb b).curlen := by
  obtain ⟨⟩ := s
  obtain ⟨⟩ := t
  simp only at hH hb hc
  subst hH hb hc
  unfold State.absorb
  simp only []
  split <;> exact ⟨rfl, rfl, rfl⟩

theorem State.absorbAll_congr (bs : List Byte) {s t : State} (hH : s.H = t.H) (hb : s.buf = t.buf)
    (hc : s.curlen = t.curlen) :
    (s.absorbAll bs).H = (t.absorbAll bs).H ∧ (s.absorbAll bs).buf = (t.absorbAll bs).buf ∧
    (s.absorbAll bs).curlen = (t.absorbAll bs).curlen := by
  induction bs generalizing s t with
  | nil => exact ⟨hH, hb, hc⟩
  | cons b bs ih =>
    obtain ⟨h1, h2, h3⟩ := State.absorb_congr b hH hb hc
    exact ih h1 h2 h3

end Sys2Proof.Machine
end

