-- ==== Sys2Proof/Laws/Run.lean ====
section
/-! SUPPORT. Runs of several steps: taking one step off the front, and joining two runs. -/

namespace Sys2Proof.Machine

theorem run_succ_of_step (n : Nat) {s t : State} (h : step s = .next t) :
    Host.Core.run Sys2Proof.core (n + 1) s = Host.Core.run Sys2Proof.core n t := by
  have h' : Sys2Proof.core.step s = .next t := h
  simp only [Host.Core.run, h']

theorem run_one_of_step {s t : State} (h : step s = .next t) : Host.Core.run Sys2Proof.core 1 s = .next t :=
  run_succ_of_step 0 h

theorem run_add_of_run (n : Nat) {m : Nat} {s t : State} (h : Host.Core.run Sys2Proof.core m s = .next t) :
    Host.Core.run Sys2Proof.core (m + n) s = Host.Core.run Sys2Proof.core n t := by
  induction m generalizing s with
  | zero =>
    cases h
    rw [Nat.zero_add]
  | succ m ih =>
    rw [Nat.succ_add]
    cases hs : step s with
    | next u =>
      rw [run_succ_of_step m hs] at h
      rw [run_succ_of_step _ hs]
      exact ih h
    | fault r =>
      have h' : Sys2Proof.core.step s = .fault r := hs
      simp only [Host.Core.run, h'] at h
      cases h
    | refused r =>
      have h' : Sys2Proof.core.step s = .refused r := hs
      simp only [Host.Core.run, h'] at h
      cases h

/-! ## What one step does, by the event at the head of the host's list -/

/-- Nothing to do (R215, R241). -/
theorem step_idle {s : State} (hh : s.host = []) (hp : s.pend = 0) : step s = .next s := by
  simp only [step, hostStep, hh, if_pos hp]

/-- The host has nothing to do and the core agent has (R39). -/
theorem step_drain {s : State} (hh : s.host = []) (hp : s.pend ≠ 0) : step s = .next s.coreStep := by
  simp only [step, hostStep, hh, if_neg hp]

/-- An access while `busy` is 0 is performed (R245). -/
theorem step_access {s : State} {a : PortAccess} {rest : List HostEvent} (hh : s.host = .access a :: rest)
    (hp : s.pend = 0) : step s = perform a { s with host := rest } := by
  simp only [step, hostStep, hh, serveAccess, if_pos hp]

/-- An access while `busy` is 1: the core agent steps, unless it is a STATUS read that goes first (R245, R246). -/
theorem step_access_busy {s : State} {a : PortAccess} {rest : List HostEvent} (hh : s.host = .access a :: rest)
    (hp : s.pend ≠ 0) :
    step s = if a.readsStatus = true ∧ s.statusReadFirst = true then perform a { s.countWait with host := rest }
      else .next s.coreStep := by
  simp only [step, hostStep, hh, serveAccess, if_neg hp]

/-- A bridged access the bridge presents is served as that port access (R52). -/
theorem step_bridged {s : State} {A bits : Nat} {we : Bool} {v : Word} {a : PortAccess} {rest : List HostEvent}
    (hh : s.host = .bridged A bits we v :: rest) (hb : bridgeAccess A bits we v = some a) :
    step s = serveAccess a rest s := by
  simp only [step, hostStep, hh, hb]

/-- The reset input (R240). -/
theorem step_reset {s : State} {p : Option PortAccess} {rest : List HostEvent} (hh : s.host = .reset p :: rest) :
    step s = .next { s.resetBlock with host := rest } := by
  simp only [step, hostStep, hh]

/-- The WAIT loop at the head (R90). -/
theorem step_wait {s : State} {rest : List HostEvent} (hh : s.host = .waitIdle :: rest) :
    step s = serveWait rest s := by
  simp only [step, hostStep, hh]

end Sys2Proof.Machine
end

