-- ==== Sys2Proof/Machine/AssemblerText.lean ====
section
/-! DEFINITION. The host-side assembler's text (R89, R90): lines of characters to statements. The characters of a
string are its bytes when they are ASCII, a number must fit its place, and what else the rules leave open about the
text is fixed as notes/assumptions/15.md says. -/

namespace Sys2Proof.Machine

/-- The tokens of one line. -/
inductive Token where
  | word (cs : List Char)
  | text (cs : List Char)
  | comma
deriving DecidableEq, Repr

/-- The word collected so far, given back to front, as a token before the others. -/
def flushWord (cur : List Char) (rest : List Token) : List Token :=
  if cur = [] then rest else .word cur.reverse :: rest

/-- One line to tokens: blanks and commas part words, `;` starts a comment (R89), a string stands in double quotes.
`cur` is the word or string being collected, back to front. DESIGN CHOICE, where R89 and R90 are silent
(notes/assumptions/15.md): a string ends at the first double quote after the one that opens it and has no escape, so
that a backslash is a plain character and no string holds a double quote; a tab and a carriage return are blanks. -/
def lexLine (inText : Bool) (cur : List Char) : List Char → Option (List Token)
  | [] => if inText then none else some (flushWord cur [])
  | c :: cs =>
    if inText then
      if c = '"' then (lexLine false [] cs).map (.text cur.reverse :: ·) else lexLine true (c :: cur) cs
    else if c = ';' then some (flushWord cur [])
    else if c = ',' then (lexLine false [] cs).map fun ts => flushWord cur (.comma :: ts)
    else if c = ' ' ∨ c = '\t' ∨ c = '\r' then (lexLine false [] cs).map fun ts => flushWord cur ts
    else if c = '"' then (lexLine true [] cs).map fun ts => flushWord cur ts
    else lexLine false (c :: cur) cs

/-- The value of a digit in a base of at most 16. DESIGN CHOICE, where R89 is silent (notes/assumptions/15.md): the
hexadecimal digits above 9 are A to F and a to f alike. -/
def digitValue (base : Nat) (c : Char) : Option Nat :=
  let n := c.toNat
  let d := if 48 ≤ n ∧ n ≤ 57 then n - 48 else if 65 ≤ n ∧ n ≤ 70 then n - 55
    else if 97 ≤ n ∧ n ≤ 102 then n - 87 else 16
  if d < base then some d else none

/-- Digits, most significant first, onto the value of those before them. -/
def digitsValue (base acc : Nat) : List Char → Option Nat
  | [] => some acc
  | c :: cs => (digitValue base c).bind fun d => digitsValue base (base * acc + d) cs

/-- A number: hexadecimal with `0x`, or decimal (R89). DESIGN CHOICE, where R89 is silent
(notes/assumptions/15.md): leading zeros are allowed, and there is no sign and no separator. -/
def numberValue : List Char → Option Nat
  | [] => none
  | '0' :: 'x' :: c :: cs => digitsValue 16 0 (c :: cs)
  | c :: cs => digitsValue 10 0 (c :: cs)

/-- A number token. -/
def Token.number : Token → Option Nat
  | .word cs => numberValue cs
  | .text _ => none
  | .comma => none

/-- A number token as a 32-bit value. -/
def Token.value (t : Token) : Option Word :=
  t.number.bind fun n => if n < 2 ^ 32 then some (BitVec.ofNat 32 n) else none

/-- A number token as a byte. -/
def Token.byte (t : Token) : Option Byte :=
  t.number.bind fun n => if n < 256 then some (BitVec.ofNat 8 n) else none

/-- The bytes of a string's characters. -/
def textBytes : List Char → Option (List Byte)
  | [] => some []
  | c :: cs => (textBytes cs).bind fun bs => if c.toNat < 128 then some (BitVec.ofNat 8 c.toNat :: bs) else none

/-- The register names in the order of their word indexes (R89). -/
def regNames : List (List Char × RegName) :=
  [(['C', 'T', 'R', 'L'], .ctrl), (['S', 'T', 'A', 'T', 'U', 'S'], .status), (['D', 'I', 'N'], .din),
   (['R', 'S', 'V', '3'], .rsv3), (['L', 'E', 'N', '_', 'L', 'O'], .lenLo), (['L', 'E', 'N', '_', 'H', 'I'], .lenHi),
   (['R', 'S', 'V', '6'], .rsv6), (['R', 'S', 'V', '7'], .rsv7)] ++
  List.ofFn fun i : Fin 8 => (['D', 'I', 'G', 'E', 'S', 'T'] ++ [Char.ofNat (48 + i.val)], .digest i)

/-- A register name token. -/
def Token.register : Token → Option RegName
  | .word cs => (regNames.find? fun p => decide (p.1 = cs)).map (·.2)
  | .text _ => none
  | .comma => none

/-- Operands with a comma between each two; none where a comma is missing or stands alone. -/
def operandList : List Token → Option (List Token)
  | [] => some []
  | [t] => if t = .comma then none else some [t]
  | t :: .comma :: rest => if t = .comma ∨ rest = [] then none else (operandList rest).map (t :: ·)
  | _ :: _ :: _ => none

/-- The operands of BYTES: one string, or bytes (R90). DESIGN CHOICE, where R90 is silent
(notes/assumptions/15.md): BYTES without an operand does not assemble. -/
def bytesOperands : List Token → Option (List Byte)
  | [.text cs] => textBytes cs
  | [] => none
  | ts => ts.mapM Token.byte

/-- A statement from its first word and its operands (R89, R90). -/
def parseStmt (op : List Char) (args : List Token) : Option Stmt :=
  match args with
  | [] =>
    if op = ['N', 'O', 'P'] then some .nop
    else if op = ['I', 'N', 'I', 'T'] then some .init
    else if op = ['C', 'L', 'O', 'S', 'E'] then some .close
    else if op = ['W', 'A', 'I', 'T'] then some .wait
    else if op = ['D', 'I', 'G', 'E', 'S', 'T'] then some .digest
    else none
  | x :: more =>
    if op = ['B', 'Y', 'T', 'E', 'S'] then (bytesOperands args).map .bytes
    else
      match more with
      | [] =>
        if op = ['W', 'R', 'I', 'T', 'E'] then x.number.map .write
        else if op = ['.', 'c', 'm', 'd'] then x.value.map .cmd
        else if op = ['R', 'D'] then x.register.map .rd
        else if op = ['H', 'A', 'S', 'H'] then
          match x with
          | .text cs => (textBytes cs).map .hash
          | _ => none
        else none
      | [y] =>
        if op = ['W', 'R'] then x.register.bind fun r => y.value.map fun v => .wr r v
        else if op = ['P', 'U', 'S', 'H'] then x.number.bind fun n => y.value.map fun v => .push n v
        else none
      | _ => none

/-- One line: no statement where it is empty or a comment; none where it is not of the form of R89 and R90. -/
def parseLine (line : List Char) : Option (List Stmt) :=
  (lexLine false [] line).bind fun ts =>
    match ts with
    | [] => some []
    | .word op :: args => (operandList args).bind fun xs => (parseStmt op xs).map fun st => [st]
    | _ => none

/-- The characters of a text parted into lines, each ended by a line feed or the end of the text (DESIGN CHOICE, where
R89 is silent: notes/assumptions/15.md). -/
def textLines (cur : List Char) : List Char → List (List Char)
  | [] => [cur.reverse]
  | c :: cs => if c = '\n' then cur.reverse :: textLines [] cs else textLines (c :: cur) cs

/-- A program's text to its statements, one to a line (R89); none where some line is none. -/
def parseText (text : List Char) : Option (List Stmt) :=
  ((textLines [] text).mapM parseLine).map List.flatten

/-- A program's text to the host events it stands for. -/
def assembleText (text : List Char) : Option (List HostEvent) := (parseText text).bind assembleAll

end Sys2Proof.Machine
end

