-- ==== Sys2Proof/Tests/Slice0.lean ====
section
/-! SUPPORT. Tests of the model against words, values and rows written out in the spec (95_test_vectors.md, and the
examples in the rules), and a witness for the hypotheses of each obligation. -/

namespace Sys2Proof.Tests

open Sys2Proof Sys2Proof.Machine

/-! ## Helpers -/

/-- The next state of an outcome, if it is one. -/
def nextOf (o : Host.Outcome State Fault Refusal) : Option State :=
  match o with
  | .next t => some t
  | .fault _ => none
  | .refused _ => none

/-- Why an outcome is a refusal, if it is one. -/
def refusalOf (o : Host.Outcome State Fault Refusal) : Option Refusal :=
  match o with
  | .next _ => none
  | .fault _ => none
  | .refused r => some r

/-- The STATUS word a STATUS read would return next. -/
def statusOf (o : Host.Outcome State Fault Refusal) : Option Word := (nextOf o).map State.status

/-- A port write. -/
def wr (idx : RegIndex) (v : Word) : PortAccess := { idx := idx, we := true, wdata := v }

/-- A port read. -/
def rd (idx : RegIndex) : PortAccess := { idx := idx, we := false, wdata := 0 }

/-- The state after INIT. -/
def opened : State := { State.reset with H := initialWords, phase := .initialized }

/-- An open message with `c` bytes in the buffer, all of them 'a', and the bit count `n`. -/
def filled (c : BitVec 6) (n : Length) : State :=
  { opened with buf := Vector.replicate 64 0x61, curlen := c, length := n, phase := .accumulating }

/-- A state with a digest. -/
def finished : State := { opened with phase := .finalized }

/-! ## Ill-formed terms are refused -/

theorem test_wellFormed_refuses_write_zero : (Instr.write 0).wellFormed = false := by decide

theorem test_wellFormed_refuses_write_five : (Instr.write 5).wellFormed = false := by decide

theorem test_exec_refuses_write_five : refusalOf (exec (.write 5) opened) = some .byteCountOutOfRange := by decide

/-! ## Decoding: words written out bit by bit from R81 (RSV, NBM1, OP) -/

theorem test_decode_nop : decode 0b00000000000000000000000000_00_0000 = .ok .nop := by decide

theorem test_decode_init : decode 0b00000000000000000000000000_00_0001 = .ok .init := by decide

theorem test_decode_write :
    decode 0b00000000000000000000000000_00_0010 = .ok (.write 1) ∧
    decode 0b00000000000000000000000000_01_0010 = .ok (.write 2) ∧
    decode 0b00000000000000000000000000_10_0010 = .ok (.write 3) ∧
    decode 0b00000000000000000000000000_11_0010 = .ok (.write 4) := by decide

theorem test_decode_close : decode 0b00000000000000000000000000_00_0011 = .ok .close := by decide

/-- 95_test_vectors.md §6.1, the illegal rows. -/
theorem test_decode_illegal :
    decode 0x00000013 = .error .strayByteCount ∧ decode 0x00000031 = .error .strayByteCount ∧
    decode 0x00000004 = .error .illegalOp ∧ decode 0x0000000F = .error .illegalOp ∧
    decode 0x00000040 = .error .reservedBitSet ∧ decode 0x80000002 = .error .reservedBitSet ∧
    decode 0xFFFFFFFF = .error .reservedBitSet := by decide

/-- The match values of R84, and WRITE 3 of R91. -/
theorem test_encode :
    encode .nop = 0x00000000 ∧ encode .init = 0x00000001 ∧ encode (.write 1) = 0x00000002 ∧
    encode (.write 3) = 0x00000022 ∧ encode (.write 4) = 0x00000032 ∧ encode .close = 0x00000003 := by decide

theorem test_decodeTableWord :
    decodeTableWord 32 0x12 = some (.write 2) ∧ decodeTableWord 32 0x13 = none ∧
    decodeTableWord 8 0x103 = some .close := by decide

/-! ## The arithmetic (95_test_vectors.md §2, §3) -/

theorem test_rotr_shr :
    rotr 0x80000000 7 = 0x01000000 ∧ rotr 0x12345678 7 = 0xF02468AC ∧ rotr 0x00000001 2 = 0x40000000 ∧
    shr 0x12345678 3 = 0x02468ACF ∧ shr 0xFFFFFFFF 10 = 0x003FFFFF := by decide

theorem test_mixing_functions :
    bsig0 0x12345678 = 0x66146474 ∧ bsig1 0x12345678 = 0x3561ABDA ∧
    ssig0 0x12345678 = 0xE7FCE6EE ∧ ssig1 0x12345678 = 0xA1F78649 ∧
    bsig0 0x00000001 = 0x40080400 ∧ bsig1 0x80000000 = 0x02100040 ∧
    ssig0 0xFFFFFFFF = 0x1FFFFFFF ∧ ssig1 0xFFFFFFFF = 0x003FFFFF := by decide

theorem test_ch_maj :
    ch 0xFF00FF00 0x0FF00FF0 0x00FF00FF = 0x0FFF0FFF ∧ maj 0xFF00FF00 0x0FF00FF0 0x00FF00FF = 0x0FF00FF0 ∧
    ch 0x510E527F 0x9B05688C 0x1F83D9AB = 0x1F85C98C ∧ maj 0x6A09E667 0xBB67AE85 0x3C6EF372 = 0x3A6FE667 := by decide

/-- Row 0 of the table of §3.2. -/
theorem test_first_round :
    shaRound (loadWorking initialWords) 0x428A2F98 0x61626380 =
      { a := 0x5D6AEBCD, b := 0x6A09E667, c := 0xBB67AE85, d := 0x3C6EF372, e := 0xFA2A4622, f := 0x510E527F,
        g := 0x9B05688C, h := 0x1F83D9AB } := by decide

/-- Row 63 of the table of §3.2 from its row 62, with the last words of §3.1 and R131. -/
theorem test_last_round :
    shaRound
      { a := 0xD39A2165, b := 0x04D24D6C, c := 0xB85E2CE9, d := 0xB6AE8FFF, e := 0xFB121210, f := 0x948D25B6,
        g := 0x961F4894, h := 0xB21BAD3D } 0xC67178F2 0x12B1EDEB =
      { a := 0x506E3058, b := 0xD39A2165, c := 0x04D24D6C, d := 0xB85E2CE9, e := 0x5EF50F24, f := 0xFB121210,
        g := 0x948D25B6, h := 0x961F4894 } := by decide

/-- The padded "abc" block of §3.1. -/
def abcBlock : Vector Byte 64 :=
  (((Vector.replicate 64 0).set 0 0x61).set 1 0x62 |>.set 2 0x63 |>.set 3 0x80).set 63 0x18

theorem test_schedule_abc :
    let W := schedule abcBlock
    W.getD 0 0 = 0x61626380 ∧ W.getD 15 0 = 0x00000018 ∧ W.getD 16 0 = 0x61626380 ∧ W.getD 17 0 = 0x000F0000 ∧
    W.getD 18 0 = 0x7DA86405 ∧ W.getD 31 0 = 0xD3B7973B ∧ W.getD 63 0 = 0x12B1EDEB := by decide +kernel

/-- S2 through the example of R135. -/
theorem test_compress_abc :
    compress initialWords abcBlock =
      #v[0xBA7816BF, 0x8F01CFEA, 0x414140DE, 0x5DAE2223, 0xB00361A3, 0x96177A9C, 0xB410FF61, 0xF20015AD] := by
  decide +kernel

/-! ## The commands -/

/-- I5. -/
theorem test_nop : statusOf (exec .nop opened) = some 0x00000002 := by decide

/-- I1 and I4. -/
theorem test_init :
    statusOf (exec .init State.reset) = some 0x00000002 ∧
    statusOf (exec .init { opened with err := .illegalCmd }) = some 0x00000002 := by decide

/-- W1 and W2. -/
theorem test_write :
    statusOf (exec (.write 3) { opened with din := 0x61626300 }) = some 0x00000304 ∧
    (nextOf (exec (.write 2) { opened with din := 0xAABBCCDD })).map (fun t => (t.buf[0], t.buf[1], t.buf[2], t.lenLo))
      = some (0xAA, 0xBB, 0x00, 0x00000010) := by decide +kernel

/-- W5: the block that fills in the middle of a WRITE, with BUSY 1 as §6.5 allows. -/
theorem test_write_crosses_a_block :
    (nextOf (exec (.write 4) { filled 62 0x1F0 with din := 0x62626262 })).map
      (fun t => (t.status, t.buf[0], t.buf[1], t.pend, t.H)) =
    some (0x00000205, 0x62, 0x62, 1,
      #v[0x8DF11D57, 0xCBA57EA7, 0x899C1798, 0x922C1551, 0xF52C454C, 0xB6239C6E, 0x47C1A742, 0xD07AF960]) := by
  decide +kernel

/-- S4, c = 56: two compressions. -/
theorem test_close_two_blocks :
    (nextOf (exec .close (filled 56 0x1C0))).map (fun t => (t.status, t.pend, t.H)) =
    some (0x00000007, 2,
      #v[0xB35439A4, 0xAC6F0948, 0xB6D6F9E3, 0xC6AF0F5F, 0x590CE20F, 0x1BDE7090, 0xEF797068, 0x6EC6738A]) := by
  decide +kernel

/-- §5.3: every byte of the 64-bit length reaches the block. -/
theorem test_close_full_length :
    (nextOf (exec .close (filled 0 0xFFFFFFFFFFFFFFF8))).map (fun t => (t.lenHi, t.lenLo, t.H)) =
    some (0xFFFFFFFF, 0xFFFFFFF8,
      #v[0xF17C3DA6, 0x95C8A5ED, 0xFC749881, 0xD8289EBD, 0x6FA2271E, 0xDDECA4DF, 0x72234B5D, 0x549501DE]) := by
  decide +kernel

/-! ## Errors -/

/-- W8, C1, W9 and C2. -/
theorem test_invalid_state :
    statusOf (exec (.write 3) State.reset) = some 0x00000010 ∧ statusOf (exec .close State.reset) = some 0x00000010 ∧
    statusOf (exec (.write 3) finished) = some 0x00000016 ∧ statusOf (exec .close finished) = some 0x00000016 := by
  decide

/-- L1, L2 and L3. -/
theorem test_length_limit :
    (nextOf (exec (.write 1) (filled 0 0xFFFFFFFFFFFFFFF0))).map (fun t => (t.status, t.lenHi, t.lenLo)) =
      some (0x00000104, 0xFFFFFFFF, 0xFFFFFFF8) ∧
    (nextOf (exec (.write 1) (filled 1 0xFFFFFFFFFFFFFFF8))).map (fun t => (t.status, t.lenHi, t.lenLo)) =
      some (0x00000134, 0xFFFFFFFF, 0xFFFFFFF8) ∧
    (nextOf (exec (.write 2) (filled 0 0xFFFFFFFFFFFFFFF0))).map (fun t => (t.status, t.lenHi, t.lenLo)) =
      some (0x00000034, 0xFFFFFFFF, 0xFFFFFFF0) := by decide +kernel

/-- §6.1, I6, A2, A4 and W10. -/
theorem test_port_errors :
    statusOf (perform (wr 0 0x13) opened) = some 0x00000022 ∧
    statusOf (perform (wr 0 0x4) { State.reset with err := .invalidState }) = some 0x00000010 ∧
    statusOf (perform (wr 8 5) opened) = some 0x00000042 ∧
    statusOf (perform (wr 3 0) State.reset) = some 0x00000040 ∧
    statusOf (perform (wr 0 0x32) { opened with err := .illegalCmd }) = some 0x00000022 := by decide

/-! ## The port and the steps -/

/-- A1. -/
theorem test_reads_after_reset : ∀ idx : RegIndex, busRead idx State.reset = 0 := by decide

/-- A6 and the values of the reads, the latest first. -/
theorem test_reads :
    (nextOf (performAll [wr 2 0x61626364, rd 2, rd 8, rd 0] opened)).map (·.returned) =
      some [{ idx := 0, data := 0 }, { idx := 8, data := 0x6A09E667 }, { idx := 2, data := 0x61626364 }] := by decide

/-- The host's first command after reset, placed as the next step takes it. -/
theorem test_first_command_after_reset :
    statusOf (step (State.reset.withFetchWord 32 0x00000001)) = some 0x00000002 := by decide

/-- R245: a write held while a compression is outstanding; the core agent steps instead. -/
theorem test_write_is_held :
    (nextOf (step { opened with pend := 1, host := [.access (wr 2 5)] })).map (fun t => (t.din, t.pend, t.host)) =
      some (0, 0, [.access (wr 2 5)]) := by decide

/-- §6.4: reset during a compression, with a write in progress that then has no effect. -/
theorem test_reset_input :
    (nextOf (step { filled 5 40 with pend := 1, din := 7, host := [.reset (some (wr 2 5))] })).map State.settled =
      some State.reset := by decide

/-- R52: word index `A[5:2]`; a byte address that is not a multiple of 4 is refused by the bridge. -/
theorem test_bridge :
    bridgeAccess 0x1008 32 true 5 = some (wr 2 5) ∧
    refusalOf (step { opened with host := [.bridged 0x1009 32 true 5] }) = some .bridgeAccessUnspecified := by decide

/-! ## The assembler -/

/-- The first lines of P1, and R91. -/
theorem test_assemble_text :
    assembleText "INIT ; new digest\nPUSH 3, 0x61626300\nRD STATUS\nCLOSE\nWAIT".toList =
      some [.access (wr 0 0x01), .access (wr 2 0x61626300), .access (wr 0 0x22), .access (rd 1), .access (wr 0 0x03),
        .waitIdle] := by decide

/-- R90, BYTES: a group of 4 and a final group of 1 with zeros below; R89: `WRITE 5` does not assemble. -/
theorem test_assemble_bytes :
    assembleText "BYTES \"abcde\"".toList =
      some [.access (wr 2 0x61626364), .access (wr 0 0x32), .access (wr 2 0x65000000), .access (wr 0 0x02)] ∧
    assembleText "BYTES 0x61, 98".toList = some [.access (wr 2 0x61620000), .access (wr 0 0x12)] ∧
    assembleText "WRITE 5".toList = none := by decide

/-! ## Witnesses: for each obligation with hypotheses, a state and operands that meet all of them, at the edges of
each range; for a premise that picks one of several cases, a witness for each -/

theorem witness_RotationMovesBits :
    (0 < 1 ∧ 1 < 32 ∧ 0 < 32 ∧ (rotr 0x00000002 1).getLsbD 0 = true) ∧
    (0 < 31 ∧ 31 < 32 ∧ 31 < 32 ∧ (rotr 0x40000000 31).getLsbD 31 = true) := by decide

theorem witness_ChooseAndMajorityByBits :
    (31 < 32 ∧ (ch 0x80000000 0x80000000 0).getLsbD 31 = true) ∧
    (0 < 32 ∧ (maj 1 0 1).getLsbD 0 = true) := by decide

theorem witness_MixingFunctionsByBits :
    (28 < 32 ∧ (ssig0 0x80000000).getLsbD 28 = true) ∧ (31 < 32 ∧ (ssig0 0x00000004).getLsbD 31 = false) := by decide

theorem witness_RoundIsBijective :
    shaRound (loadWorking initialWords) 0x428A2F98 0x61626380 =
      { a := 0x5D6AEBCD, b := 0x6A09E667, c := 0xBB67AE85, d := 0x3C6EF372, e := 0xFA2A4622, f := 0x510E527F,
        g := 0x9B05688C, h := 0x1F83D9AB } := by decide

theorem witness_ScheduleRecurrence : (16 ≤ 16 ∧ 16 < 64) ∧ (16 ≤ 63 ∧ 63 < 64) := by decide

theorem witness_CompressRunsTheRounds : 0 < 64 ∧ 63 < 64 := by decide

theorem witness_NopChangesNothing :
    (∃ (s : State) (rest : List HostEvent),
      s.host = .access { idx := 0, we := true, wdata := 0x00000000 } :: rest ∧ s.pend = 0) ∧
    (∃ (s : State) (rest : List HostEvent),
      s.host = .access { idx := 0, we := true, wdata := 0x00000000 } :: rest ∧ s.pend ≠ 0) :=
  ⟨⟨{ opened with host := [.access (wr 0 0)] }, [], rfl, rfl⟩,
   ⟨{ opened with host := [.access (wr 0 0)], pend := 2 }, [], rfl, by decide⟩⟩

theorem witness_InitStartsANewDigest :
    ∃ (s : State) (i : Instr) (t : State), exec i s = .next t ∧ s.err ≠ .none ∧ t.err = .none :=
  ⟨{ State.reset with err := .illegalCmd }, .init, _, rfl, by decide, rfl⟩

/-- The premises at 1 and at 4 bytes, with room left, filling the block, and passing its end; and both phases. -/
theorem witness_WriteAbsorbsItsBytes :
    (1 ≤ 1 ∧ 1 ≤ 4 ∧ opened.err = .none ∧ opened.phase = .initialized ∧ opened.length.toNat + 8 * 1 ≤ 2 ^ 64 - 1 ∧
      opened.curlen.toNat + 1 < 64) ∧
    ((filled 63 504).err = .none ∧ (filled 63 504).phase = .accumulating ∧
      (filled 63 504).length.toNat + 8 * 1 ≤ 2 ^ 64 - 1 ∧ (filled 63 504).curlen.toNat + 1 = 64) ∧
    ((filled 63 504).length.toNat + 8 * 4 ≤ 2 ^ 64 - 1 ∧ (filled 63 504).curlen.toNat + 4 = 67) ∧
    ((filled 0 0xFFFFFFFFFFFFFFF0).length.toNat + 8 * 1 ≤ 2 ^ 64 - 1) := by decide

theorem witness_ClosePadsAndCompresses :
    (opened.err = .none ∧ opened.phase = .initialized ∧ opened.curlen.toNat ≤ 55) ∧
    ((filled 55 440).err = .none ∧ (filled 55 440).phase = .accumulating ∧ (filled 55 440).curlen.toNat ≤ 55) ∧
    ((filled 56 448).err = .none ∧ (filled 56 448).phase = .accumulating ∧ ¬ (filled 56 448).curlen.toNat ≤ 55) ∧
    ((filled 63 504).err = .none ∧ (filled 63 504).phase = .accumulating ∧ ¬ (filled 63 504).curlen.toNat ≤ 55) := by
  decide

theorem witness_PaddingClosedForm :
    (55 < 64 ∧ (55 + opened.curlen.toNat) % 64 = 55) ∧ (0 < 64 ∧ (0 + (filled 55 440).curlen.toNat) % 64 = 55) ∧
    (63 < 64 ∧ (63 + (filled 56 448).curlen.toNat) % 64 = 55) := by decide

theorem witness_PhaseTransitions :
    (opened.err = .none ∧ opened.phase = .initialized) ∧ ((filled 3 24).err = .none ∧ (filled 3 24).phase = .accumulating) ∧
    (State.reset.err = .none ∧ State.reset.phase = .uninit) ∧ (finished.err = .none ∧ finished.phase = .finalized) ∧
    (1 ≤ 1 ∧ 1 ≤ 4) ∧ (1 ≤ 4 ∧ 4 ≤ 4) := by decide

/-- Both sides of the limit, next to it. -/
theorem witness_LengthNeverWraps :
    ((filled 0 0xFFFFFFFFFFFFFFF0).err = .none ∧ (filled 0 0xFFFFFFFFFFFFFFF0).phase = .accumulating ∧
      2 ^ 64 - 1 < (filled 0 0xFFFFFFFFFFFFFFF0).length.toNat + 8 * 2) ∧
    ((filled 0 0xFFFFFFFFFFFFFFF0).length.toNat + 8 * 1 ≤ 2 ^ 64 - 1 ∧
      (filled 0 0xFFFFFFFFFFFFFFF0).length.toNat % 8 = 0) := by decide

theorem witness_CommandFrame :
    (∃ s t, exec .nop s = .next t) ∧ (∃ s t, exec .init s = .next t) ∧ (∃ s t, exec (.write 4) s = .next t) ∧
    (∃ s t, exec .close s = .next t) :=
  ⟨⟨opened, _, rfl⟩, ⟨opened, _, rfl⟩, ⟨State.reset, _, rfl⟩, ⟨State.reset, _, rfl⟩⟩

theorem witness_ChecksInOrder :
    (∀ i, decode 0x00000013 ≠ .ok i) ∧
    (decode 0x00000000 = .ok .nop ∧ decode 0x00000001 = .ok .init ∧ decode 0x00000032 = .ok (.write 4) ∧
      decode 0x00000003 = .ok .close) ∧
    ({ opened with err := .accessError : State }.err ≠ .none) ∧
    (State.reset.err = .none ∧ State.reset.phase = .uninit) ∧
    ((filled 0 0xFFFFFFFFFFFFFFF0).phase = .accumulating ∧
      2 ^ 64 - 1 < (filled 0 0xFFFFFFFFFFFFFFF0).length.toNat + 8 * 4) ∧
    (∀ nb, Instr.close = .write nb → opened.length.toNat + 8 * nb ≤ 2 ^ 64 - 1) ∧
    (∀ nb, Instr.write 4 = .write nb → opened.length.toNat + 8 * nb ≤ 2 ^ 64 - 1) ∧
    (1 : RegIndex) ≠ 0 ∧ (15 : RegIndex) ≠ 0 := by
  refine ⟨?_, by decide, by decide, by decide, by decide, ?_, ?_, by decide, by decide⟩
  · intro i h
    cases h
  · intro nb h
    cases h
  · intro nb h
    cases h
    decide

theorem witness_ErrorCausesExact :
    (∃ s t, s.err = .none ∧ perform (wr 0 0x02) s = .next t ∧ t.err = .invalidState) ∧
    (∃ s t, s.err = .none ∧ perform (wr 0 0x13) s = .next t ∧ t.err = .illegalCmd) ∧
    (∃ s t, s.err = .none ∧ perform (wr 0 0x12) s = .next t ∧ t.err = .lengthOverflow) ∧
    (∃ s t, s.err = .none ∧ perform (wr 15 0) s = .next t ∧ t.err = .accessError) :=
  ⟨⟨State.reset, _, rfl, rfl, rfl⟩, ⟨State.reset, _, rfl, rfl, rfl⟩, ⟨filled 0 0xFFFFFFFFFFFFFFF0, _, rfl, rfl, rfl⟩,
   ⟨State.reset, _, rfl, rfl, rfl⟩⟩

theorem witness_ErrorsArePreciseAndFirstIsKept :
    (∃ s t, perform (wr 1 0) s = .next t ∧ s.err = .none ∧ t.err ≠ .none) ∧
    (∃ s t, perform (wr 1 0) s = .next t ∧ s.err ≠ .none ∧ (wr 1 0).we = true ∧ (wr 1 0).idx ≠ 2 ∧ (wr 1 0).idx ≠ 0) ∧
    (∃ s t, perform (wr 0 0x13) s = .next t ∧ s.err ≠ .none ∧ (wr 0 0x13).we = true ∧ (wr 0 0x13).idx ≠ 2 ∧
      ∀ i, decode (wr 0 0x13).wdata ≠ .ok i) ∧
    (∃ s t, perform (wr 0 0x01) s = .next t ∧ s.err ≠ .none ∧ (wr 0 0x01).Carries .init ∧ t.err = .none) :=
  ⟨⟨State.reset, _, rfl, rfl, by decide⟩,
   ⟨{ State.reset with err := .illegalCmd }, _, rfl, by decide, rfl, by decide, by decide⟩,
   ⟨{ State.reset with err := .illegalCmd }, _, rfl, by decide, rfl, by decide, fun i h => by cases h⟩,
   ⟨{ State.reset with err := .illegalCmd }, _, rfl, by decide, ⟨rfl, rfl, by decide⟩, rfl⟩⟩

theorem witness_OnlyInitAndResetClearErr :
    (∃ s t : State, step s = .next t ∧ s.err ≠ .none ∧ t.err ≠ s.err ∧ s.host = [.access (wr 0 1)]) ∧
    (∃ s t : State, step s = .next t ∧ s.err ≠ .none ∧ t.err ≠ s.err ∧ s.host = [.bridged 0 32 true 1]) ∧
    (∃ s t : State, step s = .next t ∧ s.err ≠ .none ∧ t.err ≠ s.err ∧ s.host = [.reset none]) :=
  ⟨⟨{ State.reset with err := .illegalCmd, host := [.access (wr 0 1)] }, _, rfl, by decide, by decide, rfl⟩,
   ⟨{ State.reset with err := .illegalCmd, host := [.bridged 0 32 true 1] }, _, rfl, by decide, by decide, rfl⟩,
   ⟨{ State.reset with err := .illegalCmd, host := [.reset none] }, _, rfl, by decide, by decide, rfl⟩⟩

theorem witness_PendingErrorBlocksTheMessage :
    ({ filled 3 24 with err := .illegalCmd : State }.err ≠ .none) ∧
    ∀ a ∈ [wr 2 5, wr 0 0x32, wr 0 0x03, rd 8], ¬ a.Carries .init := by
  refine ⟨by decide, ?_⟩
  simp [PortAccess.Carries, wr, rd]
  decide

theorem witness_DigestStaysUntilInit :
    finished.phase = .finalized ∧ ∀ a ∈ [wr 2 5, wr 0 0x32, wr 0 0x03, rd 8], ¬ a.Carries .init :=
  ⟨rfl, witness_PendingErrorBlocksTheMessage.2⟩

theorem witness_ReadOnlyWriteIsAccessError :
    (1 : RegIndex) ∈ [1, 3, 4, 5, 6, 7, 8, 9, 10, 11, 12, 13, 14, (15 : RegIndex)] ∧
    (15 : RegIndex) ∈ [1, 3, 4, 5, 6, 7, 8, 9, 10, 11, 12, 13, 14, (15 : RegIndex)] := by decide

theorem witness_ReadReturnsTheRegister :
    (7 : RegIndex) ∈ [0, 3, 6, (7 : RegIndex)] ∧ (8 : RegIndex) = BitVec.ofNat 4 (8 + (0 : Fin 8).val) ∧
    (15 : RegIndex) = BitVec.ofNat 4 (8 + (7 : Fin 8).val) := by decide

theorem witness_SideEffectsByAccess :
    (∃ s t, perform (rd 8) s = .next t ∧ (rd 8).we = false) ∧
    (∃ s t, perform (wr 0 1) s = .next t ∧ (wr 0 1).Carries .init) ∧
    (∃ s t, perform (wr 2 1) s = .next t ∧ (wr 2 1).we = true ∧ (wr 2 1).idx = 2) ∧
    (∃ s t, perform (wr 1 1) s = .next t ∧ (wr 1 1).we = true ∧ (wr 1 1).idx ≠ 0 ∧ (wr 1 1).idx ≠ 2) :=
  ⟨⟨opened, _, rfl, rfl⟩, ⟨opened, _, rfl, ⟨rfl, rfl, by decide⟩⟩, ⟨opened, _, rfl, rfl, rfl⟩,
   ⟨opened, _, rfl, rfl, by decide, by decide⟩⟩

theorem witness_BridgePresentsTheWordIndex :
    0x103C % 4 = 0 ∧ (0x103D % 4 ≠ 0 ∨ 32 ≠ 32) ∧ (0x103C % 4 ≠ 0 ∨ 8 ≠ 32) ∧ 0x1000 % 64 = 0 ∧
    { opened with host := [.bridged 0x103D 32 false 0] : State }.host = [.bridged 0x103D 32 false 0] ∧
    (bridgeAccess 0x1020 32 false 0 = some (rd 8) ∧ ¬ ((rd 8).we = false ∧ (rd 8).idx = 1) ∧
      { opened with host := [.bridged 0x1020 32 false 0] : State }.pend = 0 ∧
      { opened with host := [.bridged 0x1020 32 false 0], pend := 2 : State }.pend ≠ 0) := by decide

theorem witness_StepRunsTheDecodedCommand :
    (∃ s : State, s.host = .access { idx := 0, we := true, wdata := 0x03 } :: [] ∧ s.pend = 0 ∧
      decode 0x03 = .ok .close) ∧ decodeTableWord 32 0x32 = some (.write 4) :=
  ⟨⟨{ opened with host := [.access (wr 0 0x03)] }, rfl, rfl, by decide⟩, by decide⟩

theorem witness_HeldAccessIsPerformedAfterItsHold :
    ∃ s : State, s.host = .access (rd 8) :: [] ∧ ¬ ((rd 8).we = false ∧ (rd 8).idx = 1) ∧ s.pend = 2 ∧ 2 ≤ s.pend :=
  ⟨{ opened with host := [.access (rd 8)], pend := 2 }, rfl, by decide, rfl, by decide⟩

/-- The read with `busy` 0, and with `busy` 1 before and at the end of the core agent's delay. Whether the first of
the two delays is longer than 0 is free, so the statement has no premise about it. -/
theorem witness_StatusReadIsNeverHeld :
    (∃ s : State, s.host = .access { idx := 1, we := false, wdata := 0 } :: [] ∧ s.pend = 0) ∧
    (∃ s : State, s.host = .access { idx := 1, we := false, wdata := 0 } :: [] ∧ s.pend = 2 ∧
      s.statusReadFirst = decide (0 < Config.coreDelay 0)) ∧
    (∃ s : State, s.host = .access { idx := 1, we := false, wdata := 0 } :: [] ∧ s.pend = 2 ∧
      s.statusReadFirst = false) :=
  ⟨⟨{ opened with host := [.access (rd 1)] }, rfl, rfl⟩,
   ⟨{ opened with host := [.access (rd 1)], pend := 2 }, rfl, rfl, rfl⟩,
   ⟨{ opened with host := [.access (rd 1)], pend := 2, waits := Config.coreDelay 0 }, rfl, rfl,
    decide_eq_false (Nat.lt_irrefl _)⟩⟩

theorem witness_WaitLoopEnds : ∃ s : State, s.host = .waitIdle :: [] ∧ s.pend = 2 :=
  ⟨{ opened with host := [.waitIdle], pend := 2 }, rfl, rfl⟩

/-- Each way of adding to `pend` or not that the first clause names, and a run with an accepted WRITE that fills no
block and a CLOSE that is dropped. -/
theorem witness_BusyStaysZero :
    ((nextOf (perform (wr 0 0x02) (filled 62 496))).map State.pend = some 0 ∧
      (nextOf (perform (wr 0 0x02) (filled 63 504))).map State.pend = some 1 ∧
      (nextOf (perform (wr 0 0x03) (filled 55 440))).map State.pend = some 1 ∧
      (nextOf (perform (wr 0 0x03) finished)).map State.pend = some 0) ∧
    ∃ s t u : State, s.pend = 0 ∧ s.host = [wr 0 0x22, wr 0 0x13, wr 0 0x03, rd 1].map .access ∧
      performAll [wr 0 0x22, wr 0 0x13, wr 0 0x03, rd 1] s = .next u ∧ u.pend = 0 ∧
      Host.Core.run Sys2Proof.core 4 s = .next t :=
  ⟨by decide +kernel,
   { opened with host := [wr 0 0x22, wr 0 0x13, wr 0 0x03, rd 1].map .access }, _, _, rfl, rfl, rfl, rfl, rfl⟩

theorem witness_TimingAffectsOnlyBusy :
    ∃ s : State, s.host = [rd 1, wr 0 1, rd 8].map .access ∧ s.pend = 2 :=
  ⟨{ opened with host := [.access (rd 1), .access (wr 0 1), .access (rd 8)], pend := 2 }, rfl, rfl⟩

theorem witness_ResetInputResetsEverything :
    (∃ s : State, s.host = .reset none :: [] ∧ s.pend = 0) ∧ (∃ s : State, s.host = .reset (some (rd 8)) :: [] ∧ s.pend = 2) :=
  ⟨⟨{ opened with host := [.reset none] }, rfl, rfl⟩,
   ⟨{ opened with host := [.reset (some (rd 8))], pend := 2 }, rfl, rfl⟩⟩

/-- The invariant holds of a state in each phase, with a step to take. -/
theorem witness_StepKeepsTheInvariant :
    State.reset.Inv ∧ opened.Inv ∧ (filled 63 504).Inv ∧ { finished with pend := 2 : State }.Inv ∧
    ∃ t, step { filled 63 504 with host := [.access (wr 0 0x00)] } = .next t := by
  refine ⟨?_, ?_, ?_, ?_, _, rfl⟩ <;> constructor <;> decide

theorem witness_StaleBytesNeverMatter :
    ∃ s t s' : State, s.buf ≠ t.buf ∧ s.SameButStale t ∧ step s = .next s' := by
  refine ⟨{ filled 3 24 with host := [.access (wr 2 5)] },
    { filled 3 24 with buf := (Vector.replicate 64 0x61).set 3 0x00, host := [.access (wr 2 5)] }, _, by decide, ?_, rfl⟩
  exact ⟨by decide, rfl⟩

/-- "abc" in one WRITE and in two (§4.2). -/
theorem witness_ChunkingInvariance :
    ∃ (t u : State) (as bs : List PortAccess), as ≠ bs ∧ (∀ a ∈ as, a.Feeds) ∧ (∀ a ∈ bs, a.Feeds) ∧
      performAll as opened = .next t ∧ performAll bs opened = .next u ∧ t.err = .none ∧ u.err = .none ∧
      fedBytes opened.din as = fedBytes opened.din bs ∧ fedBytes opened.din as = [0x61, 0x62, 0x63] := by
  refine ⟨_, _, [wr 2 0x61626300, wr 0 0x22], [wr 2 0x61000000, wr 0 0x02, wr 2 0x62630000, wr 0 0x12], by decide,
    ?_, ?_, rfl, rfl, rfl, rfl, by decide, by decide⟩
  · have h : decode 34#32 = .ok (.write 3) := by decide
    simp [PortAccess.Feeds, PortAccess.Carries, wr, h]
  · have h1 : decode 2#32 = .ok (.write 1) := by decide
    have h2 : decode 18#32 = .ok (.write 2) := by decide
    simp [PortAccess.Feeds, PortAccess.Carries, wr, h1, h2]

theorem witness_StreamingClosedForm :
    ∃ (s : State) (as : List PortAccess), exec .init State.reset = .next s ∧ (∀ a ∈ as, a.Feeds) ∧
      [0x61, 0x62, 0x63] = fedBytes s.din as ∧ 8 * [0x61, 0x62, (0x63 : Byte)].length < 2 ^ 64 := by
  refine ⟨_, [wr 2 0x61626300, wr 0 0x22], rfl, ?_, by decide, by decide⟩
  have h : decode 34#32 = .ok (.write 3) := by decide
  simp [PortAccess.Feeds, PortAccess.Carries, wr, h]

theorem witness_HashOfAWholeMessage :
    ∃ as : List PortAccess, (∀ a ∈ as, a.Feeds) ∧ [0x61, 0x62, 0x63] = fedBytes State.reset.din as ∧
      [0x61, 0x62, (0x63 : Byte)].length ≤ 2 ^ 61 - 1 := by
  refine ⟨[wr 2 0x61626300, wr 0 0x22], ?_, by decide, by decide⟩
  have h : decode 34#32 = .ok (.write 3) := by decide
  simp [PortAccess.Feeds, PortAccess.Carries, wr, h]

/-- One message without an error, and one with an illegal command in it. -/
theorem witness_FinalizedMeansTheDigest :
    (∀ a ∈ [wr 2 0x61626300, wr 0 0x22], ¬ a.Carries .init ∧ ¬ a.Carries .close) ∧
    (∀ a ∈ [wr 0 0x13, wr 0 0x22], ¬ a.Carries .init ∧ ¬ a.Carries .close) := by
  have h1 : decode 34#32 = .ok (.write 3) := by decide
  have h2 : decode 19#32 = .error .strayByteCount := by decide
  constructor <;> simp [PortAccess.Carries, wr, h1, h2]

theorem witness_AssembledBytesFeedTheMessage :
    assemble (.bytes [0x61, 0x62, 0x63]) = some [.access (wr 2 0x61626300), .access (wr 0 0x22)] ∧
    assemble (.bytes []) = some [] ∧ assemble (.write 0) = none ∧ assemble (.push 5 0) = none := by decide

theorem witness_AssembledHashReadsTheDigest :
    ∃ es, [0x61, 0x62, (0x63 : Byte)].length ≤ 2 ^ 61 - 1 ∧ assemble (.hash [0x61, 0x62, 0x63]) = some es :=
  ⟨_, by decide, rfl⟩

end Sys2Proof.Tests
end

section
/-! PROOFS. The state family, part 1: what one step can do, and the invariant that every step keeps (R24 to R27, R56,
R245). -/

namespace Sys2Proof.Machine

/-! ## What one step can do -/

/-- Serving a port access is the core agent's step, or performs the access: any access while `busy` is 0, a STATUS
read also before that step (R245, R246). -/
theorem serveAccess_cases {a : PortAccess} {rest : List HostEvent} {s t : State}
    (h : serveAccess a rest s = .next t) :
    (s.pend ≠ 0 ∧ t = s.coreStep) ∨
    ∃ w, (s.pend = 0 ∨ a.readsStatus = true) ∧ perform a { s with host := rest, waits := w } = .next t := by
  unfold serveAccess at h
  split at h
  · exact .inr ⟨s.waits, .inl ‹_›, h⟩
  · split at h
    · rename_i hread
      exact .inr ⟨s.waits + 1, .inr hread.1, h⟩
    · cases h
      exact .inl ⟨‹_›, rfl⟩

/-- One turn of the WAIT loop is the core agent's step or a STATUS read (R90). -/
theorem serveWait_cases {rest : List HostEvent} {s t : State} (h : serveWait rest s = .next t) :
    (s.pend ≠ 0 ∧ t = s.coreStep) ∨
    ∃ es w, perform statusRead { s with host := es, waits := w } = .next t := by
  unfold serveWait at h
  split at h
  · exact .inr ⟨rest, s.waits, h⟩
  · split at h
    · exact .inr ⟨s.host, s.waits + 1, h⟩
    · cases h
      exact .inl ⟨‹_›, rfl⟩

/-- A step leaves the state as it is, is the core agent's step, is a reset, or performs one access, which while `busy`
is 1 is a STATUS read. -/
theorem step_cases {s t : State} (h : step s = .next t) :
    t = s ∨ t = s.coreStep ∨ (∃ rest, t = { s.resetBlock with host := rest }) ∨
    ∃ a es w, (s.pend = 0 ∨ a.readsStatus = true) ∧ perform a { s with host := es, waits := w } = .next t := by
  have served {a rest} (h : serveAccess a rest s = .next t) : t = s.coreStep ∨
      ∃ a es w, (s.pend = 0 ∨ a.readsStatus = true) ∧ perform a { s with host := es, waits := w } = .next t := by
    obtain ⟨-, ht⟩ | ⟨w, ha, hp⟩ := serveAccess_cases h
    · exact .inl ht
    · exact .inr ⟨a, rest, w, ha, hp⟩
  match hh : s.host with
  | [] =>
    by_cases hp : s.pend = 0
    · rw [step_idle hh hp] at h
      cases h
      exact .inl rfl
    · rw [step_drain hh hp] at h
      cases h
      exact .inr (.inl rfl)
  | .access a :: rest =>
    have hs : step s = serveAccess a rest s := by simp only [step, hostStep, hh]
    obtain ht | ht := served (hs ▸ h)
    · exact .inr (.inl ht)
    · exact .inr (.inr (.inr ht))
  | .bridged A bits we v :: rest =>
    cases hb : bridgeAccess A bits we v with
    | none => simp only [step, hostStep, hh, hb, reduceCtorEq] at h
    | some a =>
      rw [step_bridged hh hb] at h
      obtain ht | ht := served h
      · exact .inr (.inl ht)
      · exact .inr (.inr (.inr ht))
  | .waitIdle :: rest =>
    rw [step_wait hh] at h
    obtain ⟨-, ht⟩ | ⟨es, w, hp⟩ := serveWait_cases h
    · exact .inr (.inl ht)
    · exact .inr (.inr (.inr ⟨statusRead, es, w, .inr rfl, hp⟩))
  | .reset p :: rest =>
    rw [step_reset hh] at h
    cases h
    exact .inr (.inr (.inl ⟨rest, rfl⟩))

/-! ## The invariant -/

/-- The invariant speaks of `H`, `curlen`, `length`, `phase` and `pend` only. -/
theorem State.Inv.congr {s t : State} (hs : s.Inv) (hH : t.H = s.H) (hc : t.curlen = s.curlen)
    (hl : t.length = s.length) (hph : t.phase = s.phase) (hp : t.pend ≤ 2) : t.Inv where
  lengthWholeBytes := hl ▸ hs.lengthWholeBytes
  uninitEmpty := by rw [hH, hc, hl, hph]; exact hs.uninitEmpty
  initializedEmpty := by rw [hH, hl, hph]; exact hs.initializedEmpty
  accumulatingSome := by rw [hl, hph]; exact hs.accumulatingSome
  curlenOpen := by rw [hc, hl, hph]; exact hs.curlenOpen
  curlenClosed := by rw [hc, hph]; exact hs.curlenClosed
  pendAtMostTwo := hp

theorem State.Inv.raiseError {s : State} (hs : s.Inv) (c : ErrorCode) : (s.raiseError c).Inv :=
  hs.congr (s.raiseError_H c) (s.raiseError_curlen c) (s.raiseError_length c) (s.raiseError_phase c)
    (s.raiseError_pend c ▸ hs.pendAtMostTwo)

/-- The core agent's step lowers `pend` at most (R39). -/
theorem State.Inv.coreStep {s : State} (hs : s.Inv) : s.coreStep.Inv :=
  hs.congr rfl rfl rfl rfl (by have := hs.pendAtMostTwo; simp only [State.coreStep_pend]; omega)

/-- The block's fields at their reset values meet the invariant, whatever the host's side is (R41). -/
theorem State.reset_inv : State.reset.Inv where
  lengthWholeBytes := rfl
  uninitEmpty _ := ⟨rfl, rfl, rfl⟩
  initializedEmpty h := by cases h
  accumulatingSome h := by cases h
  curlenOpen h := by cases h
  curlenClosed h := by cases h
  pendAtMostTwo := Nat.zero_le _

/-- INIT opens a digest of no bytes, from the IV (R191). -/
theorem execInit_keeps_inv {s t : State} (hs : s.Inv) (h : execInit s = .next t) : t.Inv := by
  cases h
  exact {
    lengthWholeBytes := rfl
    uninitEmpty := fun h => by cases h
    initializedEmpty := fun _ => ⟨rfl, rfl⟩
    accumulatingSome := fun h => by cases h
    curlenOpen := fun _ => by simp
    curlenClosed := fun h => by cases h
    pendAtMostTwo := hs.pendAtMostTwo }

/-- An accepted WRITE: `length` and `curlen` advance by the same bytes, at most four, so one compression at most
(R26, R150, R155). -/
theorem acceptedWrite_inv {s : State} {nb : Nat} (hs : s.Inv) (hp0 : s.pend = 0) (hnb : 1 ≤ nb ∧ nb ≤ 4)
    (hp : s.phase.acceptsData = true) (hl : s.length.toNat + 8 * nb ≤ 2 ^ 64 - 1) :
    State.Inv { s.absorbAll (messageBytes s.din nb) with
      length := s.length + BitVec.ofNat 64 (8 * nb), phase := .accumulating } := by
  have hlen : (s.length + BitVec.ofNat 64 (8 * nb)).toNat = s.length.toNat + 8 * nb := by
    rw [BitVec.toNat_add, BitVec.toNat_ofNat]; omega
  have hbytes := hs.lengthWholeBytes
  have hcur := hs.curlenOpen hp
  have hlt := s.curlen.isLt
  exact {
    lengthWholeBytes := by simp only [hlen]; omega
    uninitEmpty := fun h => by cases h
    initializedEmpty := fun h => by cases h
    accumulatingSome := fun _ => by simp only [hlen]; omega
    curlenOpen := fun _ => by simp only [hlen, State.absorbAll_curlen, messageBytes_length]; omega
    curlenClosed := fun h => by cases h
    pendAtMostTwo := by simp only [State.absorbAll_pend, messageBytes_length]; omega }

theorem execWrite_keeps_inv {s t : State} {nb : Nat} (hs : s.Inv) (hp0 : s.pend = 0)
    (h : execWrite nb s = .next t) : t.Inv := by
  obtain ⟨-, e⟩ | ⟨hnb, ⟨-, e⟩ | ⟨-, -, e⟩ | ⟨-, -, -, e⟩ | ⟨-, hp, hl, e⟩⟩ := execWrite_cases s nb <;>
    rw [e] at h <;> cases h
  · exact hs
  · exact hs.congr rfl rfl rfl rfl hs.pendAtMostTwo
  · exact hs.congr rfl rfl rfl rfl hs.pendAtMostTwo
  · exact acceptedWrite_inv hs hp0 hnb hp hl

/-- The padding ends on a block boundary (R174). -/
theorem State.pad_curlen (s : State) (L : Length) : (s.pad L).curlen = 0 := by
  have := s.curlen.isLt
  apply BitVec.eq_of_toNat_eq
  rw [State.pad_eq, State.absorbAll_curlen]
  simp only [List.length_cons, List.length_append, List.length_replicate, lengthBytes_length]
  change _ = 0
  omega

/-- The padding starts one or two compressions (R174). -/
theorem State.pad_pend (s : State) (L : Length) :
    (s.pad L).pend = s.pend + if s.curlen.toNat ≤ 55 then 1 else 2 := by
  have := s.curlen.isLt
  rw [State.pad_eq, State.absorbAll_pend]
  simp only [List.length_cons, List.length_append, List.length_replicate, lengthBytes_length]
  split <;> omega

/-- An accepted CLOSE: the padding counts no bytes and leaves no byte in the buffer (R173, R174). -/
theorem acceptedClose_inv {s : State} (hs : s.Inv) (hp0 : s.pend = 0) :
    State.Inv { s.pad s.length with phase := .finalized } where
  lengthWholeBytes := by
    obtain ⟨hl, -⟩ := s.pad_kept s.length
    simpa only [hl] using hs.lengthWholeBytes
  uninitEmpty h := by cases h
  initializedEmpty h := by cases h
  accumulatingSome h := by cases h
  curlenOpen h := by cases h
  curlenClosed _ := s.pad_curlen s.length
  pendAtMostTwo := by
    simp only [State.pad_pend, hp0]
    split <;> omega

theorem execClose_keeps_inv {s t : State} (hs : s.Inv) (hp0 : s.pend = 0) (h : execClose s = .next t) : t.Inv := by
  obtain ⟨-, e⟩ | ⟨-, -, e⟩ | ⟨-, -, e⟩ := execClose_cases s <;> rw [e] at h <;> cases h
  · exact hs
  · exact hs.congr rfl rfl rfl rfl hs.pendAtMostTwo
  · exact acceptedClose_inv hs hp0

/-- A command performed while no compression is outstanding keeps the invariant. -/
theorem exec_keeps_inv {i : Instr} {s t : State} (hs : s.Inv) (hp0 : s.pend = 0) (h : exec i s = .next t) :
    t.Inv := by
  cases i with
  | nop => cases h; exact hs
  | init => exact execInit_keeps_inv hs h
  | write nb => exact execWrite_keeps_inv hs hp0 h
  | close => exact execClose_keeps_inv hs hp0 h

/-- An access keeps the invariant: a STATUS read at any time, any other while no compression is outstanding. -/
theorem perform_keeps_inv {a : PortAccess} {s t : State} (hs : s.Inv) (ha : s.pend = 0 ∨ a.readsStatus = true)
    (h : perform a s = .next t) : t.Inv := by
  obtain ⟨-, e⟩ | ⟨-, -, e⟩ | ⟨-, -, -, e⟩ | ⟨-, -, -, e⟩ | ⟨hw, -, i, -, e⟩ := perform_cases a s <;> rw [e] at h
  · cases h; exact hs.congr rfl rfl rfl rfl hs.pendAtMostTwo
  · cases h; exact hs.congr rfl rfl rfl rfl hs.pendAtMostTwo
  · cases h; exact hs.raiseError _
  · cases h; exact hs.raiseError _
  · have hp0 : s.pend = 0 := ha.resolve_right (by simp [PortAccess.readsStatus, hw])
    exact exec_keeps_inv hs hp0 h

/-- Settles O45, by what one step can do: the core agent and reset keep the invariant, and so does the access a step
performs, which while `busy` is 1 is a STATUS read. -/
theorem stepKeepsTheInvariant : Obligations.StepKeepsTheInvariant := by
  intro s t hs h
  obtain rfl | rfl | ⟨rest, rfl⟩ | ⟨a, es, w, ha, hp⟩ := step_cases h
  · exact hs
  · exact hs.coreStep
  · exact State.reset_inv.congr rfl rfl rfl rfl (Nat.zero_le _)
  · have hs' : State.Inv { s with host := es, waits := w } := hs.congr rfl rfl rfl rfl hs.pendAtMostTwo
    exact perform_keeps_inv hs' ha hp

/-- Settles O44. -/
theorem resetMeetsTheInvariant : Obligations.ResetMeetsTheInvariant := State.reset_inv

end Sys2Proof.Machine
end

section
/-! PROOFS. The state family, part 2: no command, read or compression sees a stale byte of `buf` (R23, R153). -/

namespace Sys2Proof.Machine

/-! ## States that differ at most in stale bytes -/

/-- An update of the state that neither reads nor writes `buf`, nor sets `curlen`. -/
def LeavesBuffer (f : State → State) : Prop :=
  ∀ s b, (f s).buf = s.buf ∧ (f s).curlen = s.curlen ∧ f { s with buf := b } = { f s with buf := b }

namespace State.SameButStale

theorem refl (s : State) : s.SameButStale s := ⟨fun _ _ => rfl, rfl⟩

/-- Another buffer under a state, with the same valid bytes. -/
theorem of_buf {s : State} {b : Vector Byte 64} (h : ∀ j : Fin 64, j.val < s.curlen.toNat → s.buf[j] = b[j]) :
    s.SameButStale { s with buf := b } := ⟨h, rfl⟩

/-- An update that neither reads nor writes `buf`, nor sets `curlen`, keeps the relation. -/
theorem update {s t : State} (h : s.SameButStale t) {f : State → State} (hf : LeavesBuffer f) :
    (f s).SameButStale (f t) := by
  obtain ⟨hbuf, hcur, hcomm⟩ := hf s t.buf
  have ht : f t = { f s with buf := t.buf } := by rw [← hcomm, h.rest]
  rw [ht]
  refine of_buf fun j hj => ?_
  rw [hbuf]
  exact h.valid j (hcur ▸ hj)

variable {s t : State} (h : s.SameButStale t)
include h

theorem curlen_eq : t.curlen = s.curlen := by rw [← h.rest]
theorem length_eq : t.length = s.length := by rw [← h.rest]
theorem din_eq : t.din = s.din := by rw [← h.rest]
theorem host_eq : t.host = s.host := by rw [← h.rest]

/-! ## Absorbing bytes -/

/-- The byte stored at `buf[curlen]` is no longer stale: the buffers now agree up to and including it (R152). -/
theorem storeByte_buf_getElem (b : Byte) (j : Fin 64) (hj : j.val ≤ s.curlen.toNat) :
    (s.storeByte b).buf[j] = (t.storeByte b).buf[j] := by
  simp only [State.storeByte_buf, h.curlen_eq, Fin.getElem_fin, Vector.getElem_set]
  split
  · rfl
  · exact h.valid j (by omega)

/-- Where the stored byte fills the buffer, no stale byte is left. -/
theorem storeByte_eq (b : Byte) (hfull : s.curlen.toNat + 1 = 64) : s.storeByte b = t.storeByte b := by
  have hbuf : (s.storeByte b).buf = (t.storeByte b).buf :=
    Vector.ext fun j hj => h.storeByte_buf_getElem b ⟨j, hj⟩ (by simp only; omega)
  calc s.storeByte b = { s with buf := (s.storeByte b).buf } := rfl
    _ = { s with buf := (t.storeByte b).buf } := by rw [hbuf]
    _ = { { s with buf := t.buf } with buf := (t.storeByte b).buf } := rfl
    _ = t.storeByte b := by rw [h.rest]; rfl

/-- Absorbing a byte sees no stale byte: it compresses only a buffer with none left (R153). -/
theorem absorb (b : Byte) : (s.absorb b).SameButStale (t.absorb b) := by
  have hlt := s.curlen.isLt
  by_cases hfull : s.curlen.toNat + 1 = 64
  · have ht : t.curlen.toNat = 63 := by rw [h.curlen_eq]; omega
    rw [State.absorb_full b (by omega), State.absorb_full b ht, h.storeByte_eq b hfull]
    exact refl _
  · have hopen : s.curlen.toNat + 1 < 64 := by omega
    have ht : t.absorb b = { s.absorb b with buf := (t.storeByte b).buf } := by
      rw [State.absorb_open b hopen, State.absorb_open b (h.curlen_eq ▸ hopen), ← h.rest]
      rfl
    rw [ht]
    refine of_buf fun j hj => ?_
    rw [State.absorb_curlen, BitVec.toNat_add_of_lt (by simpa using hopen)] at hj
    rw [State.absorb_buf]
    exact h.storeByte_buf_getElem b j (Nat.le_of_lt_succ hj)

theorem absorbAll (bs : List Byte) : (s.absorbAll bs).SameButStale (t.absorbAll bs) := by
  induction bs generalizing s t with
  | nil => exact h
  | cons b bs ih => exact ih (h.absorb b)

/-- The message bytes of a WRITE are absorbed alike, and counted alike (R150). -/
theorem absorbMessage (bs : List Byte) : (s.absorbMessage bs).SameButStale (t.absorbMessage bs) := by
  rw [State.absorbMessage_eq, State.absorbMessage_eq, h.length_eq]
  exact (h.absorbAll bs).update (f := fun u => { u with length := _ }) fun _ _ => ⟨rfl, rfl, rfl⟩

/-- The padding absorbs bytes that `curlen` and the length settle (R174). -/
theorem pad (L : Length) : (s.pad L).SameButStale (t.pad L) := by
  rw [State.pad_eq, State.pad_eq, h.curlen_eq]
  exact h.absorbAll _

end State.SameButStale

/-! ## Commands, accesses and steps -/

/-- What does not see stale bytes: from states that differ only in them it goes to states that differ only in them. -/
def IgnoresStale (f : State → Host.Outcome State Fault Refusal) : Prop :=
  ∀ s t s' : State, s.SameButStale t → f s = .next s' → ∃ t', f t = .next t' ∧ s'.SameButStale t'

namespace IgnoresStale

/-- A choice that does not depend on `buf`, between two that ignore stale bytes. -/
theorem branch {c : State → Prop} [DecidablePred c] {f g : State → Host.Outcome State Fault Refusal}
    (hc : ∀ s b, c { s with buf := b } ↔ c s) (hf : IgnoresStale f) (hg : IgnoresStale g) :
    IgnoresStale fun s => if c s then f s else g s := by
  intro s t s' h
  have hct : c t ↔ c s := h.rest ▸ hc s t.buf
  by_cases hcs : c s
  · simpa only [if_pos hcs, if_pos (hct.mpr hcs)] using hf s t s' h
  · simpa only [if_neg hcs, if_neg (mt hct.mp hcs)] using hg s t s' h

/-- What ignores stale bytes, after an update that leaves the buffer. -/
theorem after {g : State → Host.Outcome State Fault Refusal} (hg : IgnoresStale g) {f : State → State}
    (hf : LeavesBuffer f) : IgnoresStale fun s => g (f s) :=
  fun s t s' h => hg (f s) (f t) s' (h.update hf)

/-- Completing unchanged. -/
theorem next : IgnoresStale .next := by
  intro s t s' h e
  cases e
  exact ⟨t, rfl, h⟩

/-- Refusing. -/
theorem refused (r : Refusal) : IgnoresStale fun _ => .refused r := fun _ _ _ _ e => by cases e

/-- Raising an error changes `err` only (R201). -/
theorem raiseError (c : ErrorCode) : IgnoresStale fun s => .next (s.raiseError c) :=
  next.after fun s b => ⟨s.raiseError_buf c, s.raiseError_curlen c, by rw [State.raiseError_eq, State.raiseError_eq]⟩

/-- The core agent's step (R39). -/
theorem coreStep : IgnoresStale fun s => .next s.coreStep := next.after fun _ _ => ⟨rfl, rfl, rfl⟩

/-- INIT sets the whole buffer (R191). -/
theorem execInit : IgnoresStale Machine.execInit := by
  intro s t s' h e
  refine ⟨s', ?_, .refl s'⟩
  rw [← e, ← h.rest]
  rfl

/-- Reset sets the whole buffer (R240, R41). -/
theorem reset (rest : List HostEvent) : IgnoresStale fun s => .next { s.resetBlock with host := rest } := by
  intro s t s' h e
  refine ⟨s', ?_, .refl s'⟩
  rw [← e, ← h.rest]
  rfl

/-- The checks of WRITE do not depend on `buf`, and its bytes are absorbed (R150, R202). -/
theorem execWrite (nb : Nat) : IgnoresStale (Machine.execWrite nb) := by
  have accepted : IgnoresStale fun s =>
      .next { s.absorbMessage (messageBytes s.din nb) with phase := .accumulating } := by
    intro s t s' h e
    cases e
    refine ⟨_, rfl, ?_⟩
    rw [h.din_eq]
    exact (h.absorbMessage _).update (f := fun u => { u with phase := _ }) fun _ _ => ⟨rfl, rfl, rfl⟩
  exact branch (fun _ _ => .rfl) (refused _) <| branch (fun _ _ => .rfl) next <|
    branch (fun _ _ => .rfl) (raiseError _) <| branch (fun _ _ => .rfl) (raiseError _) accepted

/-- The checks of CLOSE do not depend on `buf`, and its padding is absorbed (R170, R172). -/
theorem execClose : IgnoresStale Machine.execClose := by
  have accepted : IgnoresStale fun s => .next { s.pad s.length with phase := .finalized } := by
    intro s t s' h e
    cases e
    refine ⟨_, rfl, ?_⟩
    rw [h.length_eq]
    exact (h.pad _).update (f := fun u => { u with phase := _ }) fun _ _ => ⟨rfl, rfl, rfl⟩
  exact branch (fun _ _ => .rfl) next <| branch (fun _ _ => .rfl) (raiseError _) accepted

theorem exec : (i : Instr) → IgnoresStale (Machine.exec i)
  | .nop => next
  | .init => execInit
  | .write nb => execWrite nb
  | .close => execClose

theorem command (v : Word) : IgnoresStale (Machine.command v) := by
  unfold Machine.command
  cases decode v with
  | ok i => exact exec i
  | error _ => exact raiseError _

theorem busWrite (idx : RegIndex) (v : Word) : IgnoresStale (Machine.busWrite idx v) :=
  branch (fun _ _ => .rfl) (command v) <|
    branch (fun _ _ => .rfl) (next.after fun _ _ => ⟨rfl, rfl, rfl⟩) (raiseError _)

/-- A write has the effect of its command or register, and a read returns no byte of `buf` (R54, R57). -/
theorem perform (a : PortAccess) : IgnoresStale (Machine.perform a) :=
  branch (fun _ _ => .rfl) (busWrite a.idx a.wdata) (next.after fun _ _ => ⟨rfl, rfl, rfl⟩)

theorem serveAccess (a : PortAccess) (rest : List HostEvent) : IgnoresStale (Machine.serveAccess a rest) :=
  branch (fun _ _ => .rfl) ((perform a).after fun _ _ => ⟨rfl, rfl, rfl⟩) <|
    branch (fun _ _ => .rfl) ((perform a).after fun _ _ => ⟨rfl, rfl, rfl⟩) coreStep

theorem serveWait (rest : List HostEvent) : IgnoresStale (Machine.serveWait rest) :=
  branch (fun _ _ => .rfl) ((perform statusRead).after fun _ _ => ⟨rfl, rfl, rfl⟩) <|
    branch (fun _ _ => .rfl) ((perform statusRead).after fun _ _ => ⟨rfl, rfl, rfl⟩) coreStep

/-- A step serves the host's next event, and which one that is does not depend on `buf` (R64). -/
theorem step : IgnoresStale Machine.step := by
  intro s t s' h
  unfold Machine.step hostStep
  rw [h.host_eq]
  match s.host with
  | [] => exact branch (c := fun u => u.pend = 0) (fun _ _ => .rfl) next coreStep s t s' h
  | .access a :: rest => exact serveAccess a rest s t s' h
  | .bridged A bits we v :: rest =>
    dsimp only
    cases bridgeAccess A bits we v with
    | some a => exact serveAccess a rest s t s' h
    | none => exact refused _ s t s' h
  | .waitIdle :: rest => exact serveWait rest s t s' h
  | .reset p :: rest => exact reset rest s t s' h

end IgnoresStale

/-- Settles O46: a step is made of operations each of which ignores stale bytes. -/
theorem staleBytesNeverMatter : Obligations.StaleBytesNeverMatter := IgnoresStale.step

end Sys2Proof.Machine
end

section
/-! PROOFS. The state family, part 3: the phase table (R28), the frame of the commands (R20, R30, R40), the fields of
STATUS (R33) and the reset values (R41). -/

namespace Sys2Proof.Machine

/-! ## The phase table -/

/-- An accepted WRITE leads to ACCUMULATING, and one that raises LENGTH_OVERFLOW leaves the phase (R28, R157). -/
theorem execWrite_phase_of_acceptsData {s : State} {nb : Nat} (hnb : 1 ≤ nb ∧ nb ≤ 4) (he : s.err = .none)
    (hp : s.phase.acceptsData = true) :
    ∃ t, execWrite nb s = .next t ∧ (t.err = .none → t.phase = .accumulating) ∧
      (t.err ≠ .none → t.phase = s.phase) := by
  by_cases hl : s.length.toNat + 8 * nb ≤ 2 ^ 64 - 1
  · obtain ⟨-, -, herr, -⟩ := s.absorbAll_kept (messageBytes s.din nb)
    exact ⟨_, execWrite_accepted s nb hnb he hp hl, fun _ => rfl, fun h => absurd (herr.trans he) h⟩
  · exact ⟨_, execWrite_lengthOverflow s nb hnb he hp (by omega), fun h => (by cases h), fun _ => rfl⟩

/-- An accepted CLOSE leads to FINALIZED without an error (R28). -/
theorem execClose_phase_of_acceptsData {s : State} (he : s.err = .none) (hp : s.phase.acceptsData = true) :
    ∃ t, execClose s = .next t ∧ t.err = .none ∧ t.phase = .finalized := by
  obtain ⟨-, -, herr, -⟩ := s.pad_kept s.length
  exact ⟨_, execClose_accepted s he hp, herr.trans he, rfl⟩

/-- Settles O19, row by row of the table: INIT and NOP from any phase, WRITE and CLOSE where data is accepted and where
it is not. -/
theorem phaseTransitions : Obligations.PhaseTransitions := by
  intro s nb h1 h4
  refine ⟨⟨_, rfl, rfl⟩, ⟨s, rfl, rfl⟩, fun he hp => ?_, fun he hp => ?_⟩
  · rw [← Phase.acceptsData_iff] at hp
    exact ⟨execWrite_phase_of_acceptsData ⟨h1, h4⟩ he hp, execClose_phase_of_acceptsData he hp⟩
  · rw [← Phase.not_acceptsData_iff] at hp
    exact ⟨execWrite_invalidState s nb ⟨h1, h4⟩ he hp, execClose_invalidState s he hp⟩

/-! ## What no command changes -/

/-- The fields that no command writes agree: `din` and the model's record of the host side (R30). -/
structure State.SameHostSide (s t : State) : Prop where
  din : t.din = s.din
  host : t.host = s.host
  returned : t.returned = s.returned
  waits : t.waits = s.waits
  draws : t.draws = s.draws

theorem execWrite_sameHostSide {s t : State} {nb : Nat} (h : execWrite nb s = .next t) : s.SameHostSide t := by
  obtain ⟨-, e⟩ | ⟨-, ⟨-, e⟩ | ⟨-, -, e⟩ | ⟨-, -, -, e⟩ | ⟨-, -, -, e⟩⟩ := execWrite_cases s nb <;>
    rw [e] at h <;> cases h
  · exact ⟨rfl, rfl, rfl, rfl, rfl⟩
  · exact ⟨rfl, rfl, rfl, rfl, rfl⟩
  · exact ⟨rfl, rfl, rfl, rfl, rfl⟩
  · obtain ⟨-, -, -, hdin, hhost, hret, hwaits, hdraws⟩ := s.absorbAll_kept (messageBytes s.din nb)
    exact ⟨hdin, hhost, hret, hwaits, hdraws⟩

theorem execClose_sameHostSide {s t : State} (h : execClose s = .next t) : s.SameHostSide t := by
  obtain ⟨-, e⟩ | ⟨-, -, e⟩ | ⟨-, -, e⟩ := execClose_cases s <;> rw [e] at h <;> cases h
  · exact ⟨rfl, rfl, rfl, rfl, rfl⟩
  · exact ⟨rfl, rfl, rfl, rfl, rfl⟩
  · obtain ⟨-, -, -, hdin, hhost, hret, hwaits, hdraws⟩ := s.pad_kept s.length
    exact ⟨hdin, hhost, hret, hwaits, hdraws⟩

theorem exec_sameHostSide {i : Instr} {s t : State} (h : exec i s = .next t) : s.SameHostSide t := by
  cases i with
  | nop => cases h; exact ⟨rfl, rfl, rfl, rfl, rfl⟩
  | init => cases h; exact ⟨rfl, rfl, rfl, rfl, rfl⟩
  | write nb => exact execWrite_sameHostSide h
  | close => exact execClose_sameHostSide h

/-- The padding bytes are not counted in `length` (R173). -/
theorem execClose_length {s t : State} (h : execClose s = .next t) : t.length = s.length := by
  obtain ⟨-, e⟩ | ⟨-, -, e⟩ | ⟨-, -, e⟩ := execClose_cases s <;> rw [e] at h <;> cases h
  · rfl
  · rfl
  · obtain ⟨hl, -⟩ := s.pad_kept s.length
    exact hl

/-- Settles O21: the frame of every command, `exec_pend_le` for `pend`, and what NOP, INIT and CLOSE leave. -/
theorem commandFrame : Obligations.CommandFrame := by
  intro i s t h
  obtain ⟨hdin, hhost, hret, hwaits, hdraws⟩ := exec_sameHostSide h
  refine ⟨hdin, hhost, hret, hwaits, hdraws, exec_pend_le h, ?_, ?_, ?_⟩
  · rintro rfl
    cases h
    rfl
  · rintro rfl
    cases h
    rfl
  · rintro rfl
    exact execClose_length h

/-! ## The STATUS word -/

/-- STATUS bit by bit: the bit of the field it lies in, and 0 in a reserved place (R33). -/
theorem State.status_getLsbD (s : State) (i : Nat) (hi : i < 32) :
    s.status.getLsbD i =
      if i = 0 then s.busy
      else if i < 3 then s.phase.code.getLsbD (i - 1)
      else if i < 4 then false
      else if i < 7 then s.err.code.getLsbD (i - 4)
      else if i < 8 then false
      else s.curlen.getLsbD (i - 8) := by
  have bits : s.status.getLsbD i =
      (!decide (i < 8) && s.curlen.getLsbD (i - 8) || !decide (i < 4) && s.err.code.getLsbD (i - 4) ||
        !decide (i = 0) && s.phase.code.getLsbD (i - 1) || decide (i = 0) && s.busy) := by
    simp [State.status, hi]
  rw [bits]
  -- A field has no bit past its width (`BitVec.getLsbD_of_ge`), so at most one of the four terms can be set.
  grind

/-- BUSY (R33). -/
theorem State.status_busy (s : State) : s.status.getLsbD 0 = s.busy := s.status_getLsbD 0 (by decide)

/-- PHASE (R33). -/
theorem State.status_phase (s : State) : s.status.extractLsb' 1 2 = s.phase.code := by
  apply BitVec.eq_of_getLsbD_eq
  intro i hi
  rw [BitVec.getLsbD_extractLsb', s.status_getLsbD _ (by omega), if_neg (by omega), if_pos (by omega),
    Nat.add_sub_cancel_left]
  simp [hi]

/-- ERR (R33). -/
theorem State.status_err (s : State) : s.status.extractLsb' 4 3 = s.err.code := by
  apply BitVec.eq_of_getLsbD_eq
  intro i hi
  rw [BitVec.getLsbD_extractLsb', s.status_getLsbD _ (by omega), if_neg (by omega), if_neg (by omega),
    if_neg (by omega), if_pos (by omega), Nat.add_sub_cancel_left]
  simp [hi]

/-- CURLEN and the reserved bits above it: from bit 8 on STATUS is `curlen` with zeros above (R33). -/
theorem State.status_getLsbD_ge_eight (s : State) {i : Nat} (hi : i < 24) :
    s.status.getLsbD (8 + i) = s.curlen.getLsbD i := by
  rw [s.status_getLsbD _ (by omega), if_neg (by omega), if_neg (by omega), if_neg (by omega), if_neg (by omega),
    if_neg (by omega), Nat.add_sub_cancel_left]

/-- CURLEN (R33). -/
theorem State.status_curlen (s : State) : s.status.extractLsb' 8 6 = s.curlen := by
  apply BitVec.eq_of_getLsbD_eq
  intro i hi
  rw [BitVec.getLsbD_extractLsb', s.status_getLsbD_ge_eight (by omega)]
  simp [hi]

/-- The reserved bits above CURLEN (R33). -/
theorem State.status_reserved (s : State) : s.status.extractLsb' 14 18 = 0 := by
  apply BitVec.eq_of_getLsbD_eq
  intro i hi
  rw [BitVec.getLsbD_extractLsb', show 14 + i = 8 + (6 + i) by omega, s.status_getLsbD_ge_eight (by omega),
    BitVec.getLsbD_of_ge _ _ (by omega)]
  simp

/-- Settles O31, field by field. -/
theorem statusFields : Obligations.StatusFields := by
  intro s
  refine ⟨s.status_busy, ?_, s.status_getLsbD 3 (by decide), ?_, s.status_getLsbD 7 (by decide), s.status_curlen,
    s.status_reserved⟩
  · rw [s.status_phase]
    cases s.phase <;> rfl
  · rw [s.status_err]
    cases s.err <;> rfl

/-! ## The reset values -/

/-- Every word of `H` is 0 after reset (R41). -/
theorem State.reset_H_getElem (i : Nat) (hi : i < 8) : State.reset.H[i] = 0 := by
  have hH : State.reset.H = Vector.replicate 8 0 := rfl
  simp only [hH, Vector.getElem_replicate]

/-- Every register reads 0 after reset: the digest registers because `H` is 0, the others as fixed words (R41). -/
theorem busRead_reset (idx : RegIndex) : busRead idx State.reset = 0 := by
  unfold busRead
  split_ifs
  · rfl
  · rfl
  · rfl
  · rfl
  · exact State.reset_H_getElem _ _
  · rfl

/-- Settles O42. -/
theorem resetValues : Obligations.ResetValues :=
  ⟨fun i => State.reset_H_getElem i i.isLt, fun j => Vector.getElem_replicate j.isLt, rfl, rfl, rfl, rfl, rfl, rfl,
    rfl, busRead_reset⟩

end Sys2Proof.Machine
end

section
/-! PROOFS. The memory family, part 1: what each port access does, by its direction and its word index (R54 to R60). -/

namespace Sys2Proof.Machine

/-! ## One access, by its kind -/

section
variable {a : PortAccess} (s : State)

/-- A read returns the register's value and has no other effect (R54, R55). -/
theorem perform_of_read (hw : a.we = false) :
    perform a s = .next { s with returned := { idx := a.idx, data := busRead a.idx s } :: s.returned } := by
  unfold perform
  rw [if_neg (by simp [hw])]

/-- A write has the effect of its index and its data, and returns nothing (R57). -/
theorem perform_of_write (hw : a.we = true) : perform a s = busWrite a.idx a.wdata s := by
  unfold perform
  rw [if_pos hw]

/-- A write of DIN (R58). -/
theorem perform_of_dinWrite (hw : a.we = true) (h2 : a.idx = 2) : perform a s = .next { s with din := a.wdata } := by
  rw [perform_of_write s hw, h2]
  rfl

/-- A write to an index other than CTRL and DIN (R59). -/
theorem perform_of_readOnlyWrite (hw : a.we = true) (h0 : a.idx ≠ 0) (h2 : a.idx ≠ 2) :
    perform a s = .next { s with err := if s.err = .none then .accessError else s.err } := by
  rw [perform_of_write s hw, ← State.raiseError_eq]
  unfold busWrite
  rw [if_neg h0, if_neg h2]

end

/-- CTRL and DIN are no read-only or reserved indexes (R51). -/
theorem ne_ctrl_and_ne_din_of_mem_readOnly : ∀ idx : RegIndex,
    idx ∈ [1, 3, 4, 5, 6, 7, 8, 9, 10, 11, 12, 13, 14, (15 : RegIndex)] → idx ≠ 0 ∧ idx ≠ 2 := by
  decide

/-- Settles O28. -/
theorem dinWriteSetsDin : Obligations.DinWriteSetsDin :=
  fun s _ => perform_of_dinWrite s rfl rfl

/-- Settles O29. -/
theorem readOnlyWriteIsAccessError : Obligations.ReadOnlyWriteIsAccessError := by
  intro s idx v hidx
  obtain ⟨h0, h2⟩ := ne_ctrl_and_ne_din_of_mem_readOnly idx hidx
  exact perform_of_readOnlyWrite s rfl h0 h2

/-- Settles O32, one kind of access after another: each kind's outcome is one state, and that state differs from `s`
in the one field named. -/
theorem sideEffectsByAccess : Obligations.SideEffectsByAccess := by
  intro a s t h
  refine ⟨fun hw => ?_, fun i hi => ?_, fun hw h2 => ?_, fun hw h0 h2 => ?_⟩
  · rw [perform_of_read s hw] at h
    cases h
    rfl
  · rw [← perform_of_carries hi, h]
  · rw [perform_of_dinWrite s hw h2] at h
    cases h
    rfl
  · rw [perform_of_readOnlyWrite s hw h0 h2] at h
    cases h
    rfl

/-! ## What a read returns -/

/-- LEN_LO is `length` modulo 2^32 (R35). -/
theorem State.lenLo_toNat (s : State) : s.lenLo.toNat = s.length.toNat % 2 ^ 32 := by
  rw [State.lenLo, BitVec.extractLsb'_toNat, Nat.shiftRight_zero]

/-- LEN_HI is `length` divided by 2^32, which has no bit beyond its 32 (R35). -/
theorem State.lenHi_toNat (s : State) : s.lenHi.toNat = s.length.toNat / 2 ^ 32 := by
  rw [State.lenHi, BitVec.extractLsb'_toNat, Nat.shiftRight_eq_div_pow]
  exact Nat.mod_eq_of_lt (by have := s.length.isLt; omega)

/-- CTRL and the reserved indexes read 0 (R54). -/
theorem busRead_reserved {idx : RegIndex} (h : idx ∈ [0, 3, 6, (7 : RegIndex)]) (s : State) : busRead idx s = 0 := by
  simp only [List.mem_cons, List.not_mem_nil, or_false] at h
  obtain rfl | rfl | rfl | rfl := h <;> rfl

/-- The indexes from 8 on read the state words (R54). -/
theorem busRead_of_eight_le {idx : RegIndex} (h : 8 ≤ idx.toNat) (s : State) :
    busRead idx s = s.H[idx.toNat - 8]'(by have := idx.isLt; omega) := by
  have ne_of_lt_eight {j : RegIndex} (hj : j.toNat < 8) : idx ≠ j := by
    rintro rfl
    omega
  unfold busRead
  rw [if_neg (ne_of_lt_eight (by decide)), if_neg (ne_of_lt_eight (by decide)), if_neg (ne_of_lt_eight (by decide)),
    if_neg (ne_of_lt_eight (by decide)), if_pos h]

/-- DIGESTi reads `H[i]` in every state (R54, R56). -/
theorem busRead_digest (s : State) (i : Fin 8) : busRead (BitVec.ofNat 4 (8 + i.val)) s = s.H[i] := by
  have hidx : (BitVec.ofNat 4 (8 + i.val)).toNat = 8 + i.val := by
    rw [BitVec.toNat_ofNat]
    omega
  rw [busRead_of_eight_le (by omega)]
  simp only [hidx, Nat.add_sub_cancel_left, Fin.getElem_fin]

/-- Settles O30: the value is `busRead`'s, index by index. -/
theorem readReturnsTheRegister : Obligations.ReadReturnsTheRegister := by
  intro s idx w
  refine ⟨busRead idx s, perform_of_read s rfl, fun h => busRead_reserved h s, ?_, ?_, ?_, ?_, ?_⟩
  · rintro rfl
    rfl
  · rintro rfl
    rfl
  · rintro rfl
    exact s.lenLo_toNat
  · rintro rfl
    exact s.lenHi_toNat
  · rintro i rfl
    exact busRead_digest s i

end Sys2Proof.Machine
end

section
/-! PROOFS. The memory family, part 2: the host bus bridge (R51, R52), and the step that performs a command (R64, R67,
R86). -/

namespace Sys2Proof.Machine

/-! ## Serving an access -/

theorem PortAccess.readsStatus_iff (a : PortAccess) : a.readsStatus = true ↔ a.we = false ∧ a.idx = 1 := by
  simp [PortAccess.readsStatus]

/-- While `busy` is 0 the access is performed (R245). -/
theorem serveAccess_idle {s : State} (a : PortAccess) (rest : List HostEvent) (hp : s.pend = 0) :
    serveAccess a rest s = perform a { s with host := rest } := if_pos hp

/-- While `busy` is 1 any access but a STATUS read is held (R245). -/
theorem serveAccess_held {s : State} {a : PortAccess} (rest : List HostEvent) (hp : s.pend ≠ 0)
    (ha : ¬ (a.we = false ∧ a.idx = 1)) : serveAccess a rest s = .next s.coreStep := by
  unfold serveAccess
  rw [if_neg hp, if_neg fun h => ha (a.readsStatus_iff.mp h.1)]

/-! ## The bridge -/

/-- The bridge presents an aligned 32-bit access (R52). -/
theorem bridgeAccess_aligned {A : Nat} (hA : A % 4 = 0) (we : Bool) (v : Word) :
    bridgeAccess A 32 we v = some { idx := BitVec.ofNat 4 (A / 4), we := we, wdata := v } := if_pos ⟨hA, rfl⟩

/-- The bridge presents no other access (R52). -/
theorem bridgeAccess_eq_none {A bits : Nat} (h : A % 4 ≠ 0 ∨ bits ≠ 32) (we : Bool) (v : Word) :
    bridgeAccess A bits we v = none := if_neg (by tauto)

/-- In a map at a multiple of 64 the host address of an index reaches that index (R51). -/
theorem bridgeAccess_addressAt {base : Nat} (hb : base % 64 = 0) (idx : RegIndex) (we : Bool) (v : Word) :
    bridgeAccess (addressAt base idx) 32 we v = some { idx := idx, we := we, wdata := v } := by
  have hidx : BitVec.ofNat 4 (addressAt base idx / 4) = idx := by
    apply BitVec.eq_of_toNat_eq
    have := idx.isLt
    rw [BitVec.toNat_ofNat, addressAt]
    omega
  rw [bridgeAccess_aligned (by rw [addressAt]; omega), hidx]

/-- A step with an access at the head that the bridge does not present is refused by name (R52, U13). -/
theorem step_bridged_refused {s : State} {A bits : Nat} {we : Bool} {v : Word} {rest : List HostEvent}
    (hh : s.host = .bridged A bits we v :: rest) (hb : bridgeAccess A bits we v = none) :
    step s = .refused .bridgeAccessUnspecified := by
  simp only [step, hostStep, hh, hb]

/-- Settles O34: the index presented, the refusal, the map, and a presented access served like any other. -/
theorem bridgePresentsTheWordIndex : Obligations.BridgePresentsTheWordIndex := by
  refine ⟨fun A we v hA => ⟨_, bridgeAccess_aligned hA we v, BitVec.toNat_ofNat .., rfl, rfl⟩,
    fun A bits we v s rest h hh => step_bridged_refused hh (bridgeAccess_eq_none h we v),
    fun base idx we v hb => bridgeAccess_addressAt hb idx we v, ?_⟩
  intro A bits we v a s rest hb hh
  have hs := step_bridged hh hb
  refine ⟨hs, fun hp => hs.trans (serveAccess_idle a rest hp), fun hp ha => ?_⟩
  exact ⟨s.coreStep, hs.trans (serveAccess_held rest hp ha), rfl⟩

/-! ## The step that performs a command -/

/-- With a write of a command to CTRL at the head and `busy` 0, the step is the command's (R64, R67). -/
theorem step_command {s : State} {v : Word} {rest : List HostEvent} {i : Instr}
    (hh : s.host = .access (commandAccess v) :: rest) (hp : s.pend = 0) (hv : decode v = .ok i) :
    step s = exec i { s with host := rest } := by
  have hc : (commandAccess v).Carries i := ⟨rfl, rfl, hv⟩
  rw [step_access hh hp, perform_of_carries hc]

/-- The command of an opcode-table word is the one its CTRL word decodes to (R86). -/
theorem decode_of_decodeTableWord {nbits w : Nat} {i : Instr} (h : decodeTableWord nbits w = some i) :
    decode (tableWord nbits w) = .ok i := by
  unfold decodeTableWord at h
  split at h
  · cases h
    assumption
  · cases h

/-- Settles O35: a placed word stands at the head with `busy` 0, and taking it off restores the host's list. -/
theorem stepRunsTheDecodedCommand : Obligations.StepRunsTheDecodedCommand :=
  ⟨fun _ _ _ _ hh hp hv => step_command hh hp hv,
    fun s nbits w _ h => step_command (s.withCommand_host (tableWord nbits w)) rfl (decode_of_decodeTableWord h)⟩

end Sys2Proof.Machine
end

section
/-! PROOFS. The encoding family, part 1: a command word as its three fields (R81), and the decoder against the encoder
and the rows of the command table (R84 to R86). -/

namespace Sys2Proof

/-! ## A word and its fields -/

/-- The word with the given RSV, NBM1 and OP (R81). -/
def wordOfFields (rsv : BitVec 26) (nbm1 : BitVec 2) (op : BitVec 4) : Word := rsv ++ nbm1 ++ op

theorem wordOfFields_fields (v : Word) : wordOfFields (rsvField v) (nbm1Field v) (opField v) = v := by
  have hhigh : rsvField v ++ nbm1Field v = v.extractLsb' 4 28 :=
    BitVec.extractLsb'_append_extractLsb'_eq_extractLsb' rfl
  have hall : v.extractLsb' 4 28 ++ opField v = v.extractLsb' 0 32 :=
    BitVec.extractLsb'_append_extractLsb'_eq_extractLsb' rfl
  rw [wordOfFields, hhigh]
  exact hall.trans BitVec.extractLsb'_eq_self

/-- Two words are equal when their fields are. -/
theorem wordOfFields_inj {r r' : BitVec 26} {n n' : BitVec 2} {o o' : BitVec 4} :
    wordOfFields r n o = wordOfFields r' n' o' ↔ r = r' ∧ n = n' ∧ o = o' := by
  refine ⟨fun h => ?_, by rintro ⟨rfl, rfl, rfl⟩; rfl⟩
  have append_inj {w w' : Nat} {x x' : BitVec w} {y y' : BitVec w'} (h : x ++ y = x' ++ y') : x = x' ∧ y = y' :=
    ⟨by simpa only [BitVec.extractLsb'_append_eq_left] using congrArg (BitVec.extractLsb' w' w) h,
      by simpa only [BitVec.extractLsb'_append_eq_right] using congrArg (BitVec.extractLsb' 0 w') h⟩
  obtain ⟨hhigh, ho⟩ := append_inj h
  obtain ⟨hr, hn⟩ := append_inj hhigh
  exact ⟨hr, hn, ho⟩

theorem cmdWord_eq_wordOfFields (op : BitVec 4) (nbm1 : BitVec 2) : cmdWord op nbm1 = wordOfFields 0 nbm1 op := by
  revert op nbm1
  decide

/-- A word is the command word of `op` and `nbm1` when these are its fields and RSV is 0 (R81). -/
theorem cmdWord_eq_iff {op : BitVec 4} {nbm1 : BitVec 2} {v : Word} :
    cmdWord op nbm1 = v ↔ rsvField v = 0 ∧ nbm1Field v = nbm1 ∧ opField v = op := by
  rw [cmdWord_eq_wordOfFields]
  conv => lhs; rhs; rw [← wordOfFields_fields v]
  rw [wordOfFields_inj]
  tauto

/-- The mask of the WRITE row leaves RSV and OP and clears NBM1 (R84). -/
theorem and_writeMask (v : Word) : v &&& 0xFFFFFFCF = wordOfFields (rsvField v) 0 (opField v) := by
  have hand (r r' : BitVec 26) (n n' : BitVec 2) (o o' : BitVec 4) :
      wordOfFields r n o &&& wordOfFields r' n' o' = wordOfFields (r &&& r') (n &&& n') (o &&& o') :=
    BitVec.and_append.trans (congrArg (· ++ (o &&& o')) BitVec.and_append)
  have hmask : (0xFFFFFFCF : Word) = wordOfFields (BitVec.allOnes 26) 0 (BitVec.allOnes 4) := by decide
  calc v &&& 0xFFFFFFCF
      = wordOfFields (rsvField v) (nbm1Field v) (opField v) &&&
          wordOfFields (BitVec.allOnes 26) 0 (BitVec.allOnes 4) := by rw [wordOfFields_fields, hmask]
    _ = wordOfFields (rsvField v) 0 (opField v) := by
        rw [hand, BitVec.and_allOnes, BitVec.and_allOnes, BitVec.ofNat_eq_ofNat, BitVec.and_zero]

/-! ## The rows of the command table -/

/-- The fields OP and NBM1 of a command's row in the table of R84; NBM1 is the byte count less 1 (R82). -/
def Instr.HasFields : Instr → BitVec 4 → BitVec 2 → Prop
  | .nop, op, nbm1 => op = 0 ∧ nbm1 = 0
  | .init, op, nbm1 => op = 1 ∧ nbm1 = 0
  | .write nb, op, nbm1 => op = 2 ∧ nb = nbm1.toNat + 1
  | .close, op, nbm1 => op = 3 ∧ nbm1 = 0

/-- The decoder reads a command off its fields, RSV being 0 (R85, R86). -/
theorem decode_eq_ok_iff (v : Word) (i : Instr) :
    decode v = .ok i ↔ rsvField v = 0 ∧ i.HasFields (opField v) (nbm1Field v) := by
  constructor
  · intro h
    unfold decode at h
    split_ifs at h with hr hop h2 hn h0 h1 <;> cases h
    all_goals refine ⟨not_not.mp hr, ?_⟩
    · exact ⟨h2, rfl⟩
    · exact ⟨h0, not_not.mp hn⟩
    · exact ⟨h1, not_not.mp hn⟩
    · exact ⟨by bv_omega, not_not.mp hn⟩
  · rintro ⟨hr, hi⟩
    cases i <;> obtain ⟨ho, hn⟩ := hi <;> simp [decode, hr, ho, hn]

/-- The encoder writes the fields of the command's row, RSV being 0, for a well-formed command (R84). -/
theorem wellFormed_and_encode_eq_iff (v : Word) (i : Instr) :
    i.wellFormed = true ∧ encode i = v ↔ rsvField v = 0 ∧ i.HasFields (opField v) (nbm1Field v) := by
  cases i with
  | nop | init | close => simp only [Instr.wellFormed, encode, cmdWord_eq_iff, Instr.HasFields]; tauto
  | write nb =>
    have hcount : (1 ≤ nb ∧ nb ≤ 4) ∧ nbm1Field v = BitVec.ofNat 2 (nb - 1) ↔ nb = (nbm1Field v).toNat + 1 := by
      rw [← BitVec.toNat_inj, BitVec.toNat_ofNat]
      omega
    simp only [Instr.wellFormed, decide_eq_true_eq, encode, cmdWord_eq_iff, Instr.HasFields, ← hcount]
    tauto

/-- Settles O1: both sides say that RSV is 0 and that OP and NBM1 are those of the command's row. -/
theorem decodeIffEncode : Obligations.DecodeIffEncode :=
  fun v i => (decode_eq_ok_iff v i).trans (wellFormed_and_encode_eq_iff v i).symm

/-! ## The legal words -/

/-- The formula of R85 says that the fields are those of some row. -/
theorem exists_decode_iff_formula (v : Word) :
    (∃ i, decode v = .ok i) ↔
      rsvField v = 0 ∧ (opField v).toNat ≤ 3 ∧ (opField v = 2 ∨ nbm1Field v = 0) := by
  simp only [decode_eq_ok_iff, exists_and_left]
  refine and_congr_right fun _ => ⟨?_, ?_⟩
  · rintro ⟨i, hi⟩
    cases i <;> obtain ⟨ho, hn⟩ := hi <;> simp [ho, hn]
  · rintro ⟨hop, h⟩
    by_cases h2 : opField v = 2
    · exact ⟨.write _, h2, rfl⟩
    · have hn := h.resolve_left h2
      obtain h0 | h1 | h3 : opField v = 0 ∨ opField v = 1 ∨ opField v = 3 := by bv_omega
      · exact ⟨.nop, h0, hn⟩
      · exact ⟨.init, h1, hn⟩
      · exact ⟨.close, h3, hn⟩

/-- The words of R84: one each for NOP, INIT and CLOSE, and one for each byte count of WRITE. -/
theorem exists_decode_iff_mem (v : Word) :
    (∃ i, decode v = .ok i) ↔
      v ∈ [0x00000000, 0x00000001, 0x00000002, 0x00000012, 0x00000022, 0x00000032, (0x00000003 : Word)] := by
  constructor
  · rintro ⟨i, hi⟩
    obtain ⟨hwf, rfl⟩ := (decodeIffEncode v i).mp hi
    cases i with
    | write nb =>
      obtain ⟨h1, h4⟩ : 1 ≤ nb ∧ nb ≤ 4 := by simpa [Instr.wellFormed] using hwf
      interval_cases nb <;> decide
    | nop | init | close => decide
  · intro h
    simp only [List.mem_cons, List.not_mem_nil, or_false] at h
    obtain rfl | rfl | rfl | rfl | rfl | rfl | rfl := h <;> exact ⟨_, rfl⟩

/-- A command other than WRITE has one word, which the mask of its row compares in full (R84). -/
theorem decode_iff_fullMask {i : Instr} (hwf : i.wellFormed = true) (v : Word) :
    decode v = .ok i ↔ v &&& 0xFFFFFFFF = encode i := by
  have hmask : v &&& 0xFFFFFFFF = v := BitVec.and_allOnes
  rw [decodeIffEncode v i, and_iff_right hwf, hmask, eq_comm]

/-- WRITE is read by the mask of its row, which leaves NBM1 to the byte count (R82, R84). -/
theorem decode_write_iff_mask (v : Word) (nb : Nat) :
    decode v = .ok (.write nb) ↔ v &&& 0xFFFFFFCF = 0x00000002 ∧ nb = (nbm1Field v).toNat + 1 := by
  have hmatch : (0x00000002 : Word) = wordOfFields 0 0 2 := by decide
  rw [decode_eq_ok_iff, and_writeMask, hmatch, wordOfFields_inj]
  simp only [Instr.HasFields]
  tauto

/-- Settles O2: the formula, the seven words, and the rows one by one. -/
theorem legalWordsExactlySeven : Obligations.LegalWordsExactlySeven :=
  fun v => ⟨exists_decode_iff_formula v, exists_decode_iff_mem v, decode_iff_fullMask rfl v, decode_iff_fullMask rfl v,
    decode_write_iff_mask v, decode_iff_fullMask rfl v⟩

/-- Settles O3. -/
theorem writtenOutWordsDecode : Obligations.WrittenOutWordsDecode := by
  unfold Obligations.WrittenOutWordsDecode
  decide

end Sys2Proof
end

section
/-! PROOFS. The encoding family, part 2: the WAIT loop ends under every timing of the core agent (R90, R245). -/

namespace Sys2Proof.Machine

/-! ## The turns of the WAIT loop -/

section
variable {s : State} {rest : List HostEvent} (hh : s.host = .waitIdle :: rest)
include hh

/-- With `busy` 0 the read is the loop's last (R90). -/
theorem step_wait_idle (hp : s.pend = 0) :
    step s = .next { s with host := rest, returned := { idx := 1, data := s.status } :: s.returned } := by
  rw [step_wait hh, serveWait, if_pos hp]
  rfl

/-- With `busy` 1 a read that goes before the core agent's step leaves the loop to be run again (R90, R246). -/
theorem step_wait_read (hp : s.pend ≠ 0) (hr : s.statusReadFirst = true) :
    step s = .next { s.countWait with returned := { idx := 1, data := s.status } :: s.returned } := by
  rw [step_wait hh, serveWait, if_neg hp, if_pos hr]
  rfl

/-- With `busy` 1 and no further read before it, the core agent steps (R245). -/
theorem step_wait_core (hp : s.pend ≠ 0) (hr : ¬ s.statusReadFirst = true) : step s = .next s.coreStep := by
  rw [step_wait hh, serveWait, if_neg hp, if_neg hr]

end

/-! ## The loop as a whole -/

/-- Some run from `s` leaves the host's accesses `rest` and `busy` 0, with nothing but timing changed; the reads it
makes are of STATUS, the last with BUSY 0 and those before it with BUSY 1. -/
def State.WaitEnds (s : State) (rest : List HostEvent) : Prop :=
  ∃ (n : Nat) (t : State) (reads : List ReadResult), Host.Core.run Sys2Proof.core n s = .next t ∧
    t.host = rest ∧ t.pend = 0 ∧ t.settled = s.settled ∧
    t.returned = { idx := 1, data := t.status } :: (reads ++ s.returned) ∧ t.status.getLsbD 0 = false ∧
    ∀ r ∈ reads, r.idx = 1 ∧ r.data.getLsbD 0 = true

/-- A turn in which the core agent steps. -/
theorem State.WaitEnds.of_coreStep {s : State} {rest : List HostEvent} (hs : step s = .next s.coreStep)
    (h : s.coreStep.WaitEnds rest) : s.WaitEnds rest := by
  obtain ⟨n, t, reads, hrun, h⟩ := h
  exact ⟨n + 1, t, reads, (run_succ_of_step n hs).trans hrun, h⟩

/-- A turn in which STATUS is read with BUSY 1. -/
theorem State.WaitEnds.of_read {s u : State} {rest : List HostEvent} (hp : s.pend ≠ 0) (hs : step s = .next u)
    (hret : u.returned = { idx := 1, data := s.status } :: s.returned) (hset : u.settled = s.settled)
    (h : u.WaitEnds rest) : s.WaitEnds rest := by
  obtain ⟨n, t, reads, hrun, hhost, hpend, ht, hreads, hbusy, hall⟩ := h
  refine ⟨n + 1, t, reads ++ [{ idx := 1, data := s.status }], (run_succ_of_step n hs).trans hrun, hhost, hpend,
    ht.trans hset, by rw [hreads, hret, List.append_assoc]; rfl, hbusy, ?_⟩
  intro r hr
  obtain hr | hr := List.mem_append.mp hr
  · exact hall r hr
  · obtain rfl := List.mem_singleton.mp hr
    exact ⟨rfl, by rw [State.status_busy, State.busy, decide_eq_true hp]⟩

/-- WAIT ends: the reads that go before a step of the core agent are at most its delay, and the steps it has to take
are `pend` many (R245). -/
theorem State.waitEnds (rest : List HostEvent) (s : State) (hh : s.host = .waitIdle :: rest) : s.WaitEnds rest := by
  by_cases hp : s.pend = 0
  · refine ⟨1, _, [], run_one_of_step (step_wait_idle hh hp), rfl, hp, rfl, rfl, ?_, by simp⟩
    rw [State.status_busy, State.busy, hp]
    rfl
  · by_cases hr : s.statusReadFirst = true
    · have hlt : s.waits < Config.coreDelay s.draws := of_decide_eq_true hr
      exact .of_read hp (step_wait_read hh hp hr) rfl rfl (State.waitEnds rest _ hh)
    · exact .of_coreStep (step_wait_core hh hp hr) (State.waitEnds rest _ hh)
termination_by (s.pend, Config.coreDelay s.draws - s.waits)
decreasing_by
  · exact Prod.Lex.right _ (by simp only [State.countWait_waits, State.countWait_draws]; omega)
  · exact Prod.Lex.left _ _ (by simp only [State.coreStep_pend]; omega)

/-- Settles O39. -/
theorem waitLoopEnds : Obligations.WaitLoopEnds := fun s rest => State.waitEnds rest s

end Sys2Proof.Machine
end

section
/-! PROOFS. The encoding family, part 3: what the assembled statements feed to the block (R89, R90). -/

namespace Sys2Proof.Machine

/-! ## The accesses of a list of events -/

/-- Accesses as events give the accesses back. -/
theorem accessesOf_map_access (as : List PortAccess) : accessesOf (as.map .access) = as := by
  induction as with
  | nil => rfl
  | cons a as ih => exact congrArg (a :: ·) ih

/-! ## The bytes of a word -/

theorem wordOfBytes_eq_append (b0 b1 b2 b3 : Byte) : wordOfBytes b0 b1 b2 b3 = b0 ++ b1 ++ b2 ++ b3 := by
  have h : (b0 ++ b1 ++ b2 ++ b3).setWidth 32 = wordOfBytes b0 b1 b2 b3 :=
    BitVec.setWidth_append_append_append_eq_shiftLeft_setWidth_or
  exact h.symm.trans (BitVec.setWidth_eq _)

/-- The four bytes of a word, in stream order, are those it is made of (R9, R151). -/
theorem messageBytes_wordOfBytes_four (b0 b1 b2 b3 : Byte) :
    messageBytes (wordOfBytes b0 b1 b2 b3) 4 = [b0, b1, b2, b3] := by
  have h0 : (b0 ++ b1 ++ b2 ++ b3).extractLsb' 24 8 = b0 := by
    rw [BitVec.extractLsb'_append_eq_of_le (by decide), BitVec.extractLsb'_append_eq_of_le (by decide)]
    exact BitVec.extractLsb'_append_eq_left
  have h1 : (b0 ++ b1 ++ b2 ++ b3).extractLsb' 16 8 = b1 := by
    rw [BitVec.extractLsb'_append_eq_of_le (by decide), BitVec.extractLsb'_append_eq_of_le (by decide)]
    exact BitVec.extractLsb'_append_eq_right
  have h2 : (b0 ++ b1 ++ b2 ++ b3).extractLsb' 8 8 = b2 := by
    rw [BitVec.extractLsb'_append_eq_of_le (by decide)]
    exact BitVec.extractLsb'_append_eq_right
  have h3 : (b0 ++ b1 ++ b2 ++ b3).extractLsb' 0 8 = b3 := BitVec.extractLsb'_append_eq_right
  have hbytes (w : Word) :
      messageBytes w 4 = [w.extractLsb' 24 8, w.extractLsb' 16 8, w.extractLsb' 8 8, w.extractLsb' 0 8] := rfl
  rw [wordOfBytes_eq_append, hbytes, h0, h1, h2, h3]

/-- A WRITE takes the first bytes of the word in DIN (R151). -/
theorem messageBytes_wordOfBytes (b0 b1 b2 b3 : Byte) {nb : Nat} (hnb : nb ≤ 4) :
    messageBytes (wordOfBytes b0 b1 b2 b3) nb = [b0, b1, b2, b3].take nb := by
  rw [← messageBytes_wordOfBytes_four, messageBytes, messageBytes, ← List.map_take, List.take_range,
    Nat.min_eq_left hnb]

/-! ## Commands, PUSH and BYTES as accesses -/

/-- The write of a well-formed command's word to CTRL carries that command (R84, R86). -/
theorem commandAccess_encode_carries {i : Instr} (hwf : i.wellFormed = true) :
    (commandAccess (encode i)).Carries i :=
  ⟨rfl, rfl, (decodeIffEncode _ i).mpr ⟨hwf, rfl⟩⟩

/-- The events are writes to the port that feed exactly the bytes `bs`, whatever DIN was before them. -/
def EventsFeed (es : List HostEvent) (bs : List Byte) : Prop :=
  ∃ as : List PortAccess, es = as.map .access ∧ (∀ a ∈ as, a.we = true ∧ a.Feeds) ∧ ∀ din, fedBytes din as = bs

theorem EventsFeed.nil : EventsFeed [] [] := ⟨[], rfl, by simp, fun _ => rfl⟩

/-- A PUSH before events that feed adds the first `n` bytes of its word (R90). -/
theorem EventsFeed.push {n : Nat} (hn : 1 ≤ n ∧ n ≤ 4) (b0 b1 b2 b3 : Byte) {es : List HostEvent} {bs : List Byte}
    (h : EventsFeed es bs) :
    EventsFeed (pushEvents n (wordOfBytes b0 b1 b2 b3) ++ es) ([b0, b1, b2, b3].take n ++ bs) := by
  obtain ⟨as, rfl, has, hbytes⟩ := h
  have hcarries : (commandAccess (encode (.write n))).Carries (.write n) :=
    commandAccess_encode_carries (decide_eq_true hn)
  refine ⟨{ idx := 2, we := true, wdata := wordOfBytes b0 b1 b2 b3 } :: commandAccess (encode (.write n)) :: as, rfl,
    ?_, fun din => ?_⟩
  · rintro a (- | ⟨-, - | ⟨-, ha⟩⟩)
    · exact ⟨rfl, .inr (.inl rfl)⟩
    · exact ⟨rfl, .inr (.inr (.inr ⟨n, hcarries⟩))⟩
    · exact has a ha
  · rw [fedBytes_cons_din rfl rfl, fedBytes_cons_write hcarries, hbytes, messageBytes_wordOfBytes _ _ _ _ hn.2]

/-- BYTES feeds its bytes: group by group of 4, and the 1 to 3 that are left (R90). -/
theorem bytesEvents_feed : (bs : List Byte) → EventsFeed (bytesEvents bs) bs
  | [] => .nil
  | [b0] => .push (by decide) b0 0 0 0 .nil
  | [b0, b1] => .push (by decide) b0 b1 0 0 .nil
  | [b0, b1, b2] => .push (by decide) b0 b1 b2 0 .nil
  | b0 :: b1 :: b2 :: b3 :: rest => .push (by decide) b0 b1 b2 b3 (bytesEvents_feed rest)

/-! ## Which statements assemble -/

/-- Only a byte count outside 1..4 keeps a statement from assembling (R89). -/
theorem assemble_eq_none_iff (st : Stmt) :
    assemble st = none ↔ ∃ n, (n < 1 ∨ 4 < n) ∧ (st = .write n ∨ ∃ v, st = .push n v) := by
  have hcount (n : Nat) (es : List HostEvent) :
      (if 1 ≤ n ∧ n ≤ 4 then some es else none) = none ↔ n < 1 ∨ 4 < n := by
    rw [ite_eq_right_iff]
    simp only [reduceCtorEq, imp_false]
    omega
  cases st with
  | write | push => simp [assemble, hcount]
  | nop | init | close | cmd | wr | rd | bytes | wait | digest | hash => simp [assemble]

/-- Settles O51. -/
theorem assembledBytesFeedTheMessage : Obligations.AssembledBytesFeedTheMessage := by
  refine ⟨?_, assemble_eq_none_iff⟩
  rintro bs _ ⟨⟩
  obtain ⟨as, hes, has, hbytes⟩ := bytesEvents_feed bs
  rw [hes, accessesOf_map_access]
  exact ⟨rfl, fun a ha => (has a ha).2, hbytes⟩

end Sys2Proof.Machine
end

section
/-! PROOFS. The encoding family, part 4: the message that accesses feed, its digest, and the pseudo-instruction HASH
(R90, R161, R175). -/

namespace Sys2Proof.Machine

/-! ## States after message bytes -/

/-- `t` is `s` after the message bytes `bs` were accepted without an error, as to the fields the digest depends on. -/
structure State.Fed (s : State) (bs : List Byte) (t : State) : Prop where
  H : t.H = (s.absorbAll bs).H
  buf : t.buf = (s.absorbAll bs).buf
  curlen : t.curlen = (s.absorbAll bs).curlen
  length : t.length.toNat = s.length.toNat + 8 * bs.length
  phase : t.phase = if bs = [] then s.phase else .accumulating
  err : t.err = .none

namespace State.Fed

theorem refl {s : State} (he : s.err = .none) : s.Fed [] s := ⟨rfl, rfl, rfl, rfl, rfl, he⟩

theorem trans {s t u : State} {bs cs : List Byte} (h : s.Fed bs t) (h' : t.Fed cs u) : s.Fed (bs ++ cs) u := by
  obtain ⟨hH, hbuf, hcurlen⟩ := State.absorbAll_congr cs h.H h.buf h.curlen
  rw [← State.absorbAll_append] at hH hbuf hcurlen
  exact {
    H := h'.H.trans hH
    buf := h'.buf.trans hbuf
    curlen := h'.curlen.trans hcurlen
    length := by rw [h'.length, h.length, List.length_append]; omega
    phase := by
      rw [h'.phase, h.phase]
      cases cs <;> simp
    err := h'.err }

/-- A block that takes message bytes goes on taking them (R28). -/
theorem acceptsData {s t : State} {bs : List Byte} (h : s.Fed bs t) (hp : s.phase.acceptsData = true) :
    t.phase.acceptsData = true := by
  rw [h.phase]
  split
  · exact hp
  · rfl

end State.Fed

/-- An accepted WRITE feeds its bytes (R150). -/
theorem execWrite_fed {s : State} {nb : Nat} (hnb : 1 ≤ nb ∧ nb ≤ 4) (he : s.err = .none)
    (hp : s.phase.acceptsData = true) (hl : s.length.toNat + 8 * nb ≤ 2 ^ 64 - 1) :
    ∃ t, execWrite nb s = .next t ∧ t.din = s.din ∧ s.Fed (messageBytes s.din nb) t := by
  obtain ⟨-, -, herr, hdin, -⟩ := s.absorbAll_kept (messageBytes s.din nb)
  refine ⟨_, execWrite_accepted s nb hnb he hp hl, hdin, rfl, rfl, rfl, ?_, ?_, herr.trans he⟩
  · rw [messageBytes_length, BitVec.toNat_add, BitVec.toNat_ofNat]
    omega
  · have hne : messageBytes s.din nb ≠ [] := List.ne_nil_of_length_pos (by rw [messageBytes_length]; omega)
    rw [if_neg hne]

/-- An access that feeds is accepted, and feeds the bytes that `fedBytes` counts for it (R150, R151). -/
theorem perform_feeds {s : State} {a : PortAccess} {as : List PortAccess} (ha : a.Feeds) (he : s.err = .none)
    (hp : s.phase.acceptsData = true) (hl : s.length.toNat + 8 * (fedBytes s.din (a :: as)).length ≤ 2 ^ 64 - 1) :
    ∃ t bs, perform a s = .next t ∧ s.Fed bs t ∧ fedBytes s.din (a :: as) = bs ++ fedBytes t.din as := by
  by_cases hw : a.we = false
  · exact ⟨_, [], perform_of_read s hw, ⟨rfl, rfl, rfl, rfl, rfl, he⟩, fedBytes_cons_read hw⟩
  obtain h2 | hnop | ⟨nb, hwrite⟩ := ha.resolve_left hw
  · rw [Bool.not_eq_false] at hw
    exact ⟨_, [], perform_of_dinWrite s hw h2, ⟨rfl, rfl, rfl, rfl, rfl, he⟩, fedBytes_cons_din hw h2⟩
  · exact ⟨s, [], perform_of_carries hnop s, .refl he, fedBytes_cons_command hnop fun _ h => by cases h⟩
  · have hbytes := fedBytes_cons_write (din := s.din) (as := as) hwrite
    obtain ⟨t, ht, hdin, hfed⟩ := execWrite_fed (decode_write_bounds hwrite.2.2) he hp <| by
      rw [hbytes, List.length_append, messageBytes_length] at hl
      omega
    exact ⟨t, _, (perform_of_carries hwrite s).trans ht, hfed, hdin ▸ hbytes⟩

/-- Accesses that feed are all accepted, and feed their bytes in order (R159, R161). -/
theorem performAll_feeds {as : List PortAccess} (has : ∀ a ∈ as, a.Feeds) {s : State} (he : s.err = .none)
    (hp : s.phase.acceptsData = true) (hl : s.length.toNat + 8 * (fedBytes s.din as).length ≤ 2 ^ 64 - 1) :
    ∃ t, performAll as s = .next t ∧ s.Fed (fedBytes s.din as) t := by
  induction as generalizing s with
  | nil => exact ⟨s, rfl, .refl he⟩
  | cons a as ih =>
    obtain ⟨t, bs, ht, hfed, hbytes⟩ := perform_feeds (has a List.mem_cons_self) he hp hl
    rw [hbytes, List.length_append] at hl
    obtain ⟨u, hu, hfed'⟩ := ih (fun b hb => has b (List.mem_cons_of_mem a hb)) hfed.err (hfed.acceptsData hp)
      (by rw [hfed.length]; omega)
    exact ⟨u, (performAll_cons ht).trans hu, hbytes ▸ hfed.trans hfed'⟩

/-! ## The digest of a message -/

/-- From a block boundary, the state words are compressed with each whole block of the bytes in turn (R161). -/
theorem State.absorbAll_H {s : State} (hc : s.curlen = 0) (bs : List Byte) :
    (s.absorbAll bs).H = compressBlocks (bs.length / 64) s.H bs := by
  have hc0 : s.curlen.toNat = 0 := by rw [hc]; rfl
  by_cases hlt : bs.length < 64
  · rw [State.absorbAll_open s bs (by omega), Nat.div_eq_of_lt hlt]
    rfl
  · have htake : (bs.take 64).length = 64 := by rw [List.length_take]; omega
    have hblock : overlay s.buf 0 (bs.take 64) = toBlock bs := by
      apply Vector.ext
      intro j hj
      rw [overlay_getElem, if_pos ⟨Nat.zero_le j, by omega⟩, toBlock, Vector.getElem_ofFn]
      simp [List.getD, hj]
    have hq : bs.length / 64 = (bs.drop 64).length / 64 + 1 := by rw [List.length_drop]; omega
    conv => lhs; rw [← List.take_append_drop 64 bs]
    rw [State.absorbAll_append, State.absorbAll_fill s _ (by omega), State.absorbAll_H rfl, hc0, hblock, hq]
    rfl
termination_by bs.length

/-- Padding a message fed from an empty digest leaves its digest in `H` (R174, R175). -/
theorem State.Fed.pad_H {s t : State} {S : List Byte} (h : s.Fed S t) (hH : s.H = initialWords) (hc : s.curlen = 0)
    (hl : s.length = 0) : (t.pad t.length).H = sha256 S := by
  have hbits : t.length.toNat = 8 * S.length := by
    rw [h.length, hl]
    exact Nat.zero_add _
  have hlength : t.length = BitVec.ofNat 64 (8 * S.length) := by
    rw [← hbits, BitVec.ofNat_toNat, BitVec.setWidth_eq]
  have hcurlen : t.curlen.toNat = S.length % 64 := by
    rw [h.curlen, State.absorbAll_curlen, hc]
    simp
  have hzeros : (55 + 64 - t.curlen.toNat) % 64 = padZeroCount S.length := by rw [hcurlen]; rfl
  obtain ⟨hpad, -⟩ := State.absorbAll_congr
    (0x80 :: (List.replicate (padZeroCount S.length) 0x00 ++ lengthBytes t.length)) h.H h.buf h.curlen
  rw [State.pad_eq, hzeros, hpad, ← State.absorbAll_append, State.absorbAll_H hc, hH, hlength, sha256, paddedMessage]
  simp only [List.append_assoc, List.cons_append, List.nil_append]

/-- The state INIT leaves (R191). -/
def State.afterInit (s : State) : State :=
  { s.clearError with H := initialWords, buf := Vector.replicate 64 0, curlen := 0, length := 0, phase := .initialized }

theorem exec_init (s : State) : exec .init s = .next s.afterInit := rfl

/-- INIT, accesses that feed and CLOSE: the message is fed to the state INIT leaves, and padded (R170, R175). -/
theorem performAll_message {as : List PortAccess} (has : ∀ a ∈ as, a.Feeds) (s : State)
    (hS : (fedBytes s.din as).length ≤ 2 ^ 61 - 1) :
    ∃ t, s.afterInit.Fed (fedBytes s.din as) t ∧
      performAll (commandAccess (encode .init) :: as ++ [commandAccess (encode .close)]) s =
        .next { t.pad t.length with phase := .finalized } := by
  obtain ⟨t, ht, hfed⟩ := performAll_feeds has (s := s.afterInit) rfl rfl
    (show 0 + 8 * (fedBytes s.din as).length ≤ 2 ^ 64 - 1 by omega)
  refine ⟨t, hfed, ?_⟩
  have hinit : perform (commandAccess (encode .init)) s = .next s.afterInit :=
    perform_of_carries (commandAccess_encode_carries rfl) s
  have hclose : perform (commandAccess (encode .close)) t = .next { t.pad t.length with phase := .finalized } :=
    (perform_of_carries (commandAccess_encode_carries rfl) t).trans
      (execClose_accepted t hfed.err (hfed.acceptsData rfl))
  rw [List.cons_append, performAll_cons hinit, performAll_append as _ ht, performAll_cons hclose]
  rfl

/-! ## What HASH reads -/

/-- A write returns nothing to the host (R57). -/
theorem perform_write_returned {a : PortAccess} (hw : a.we = true) {s t : State} (h : perform a s = .next t) :
    t.returned = s.returned := by
  obtain ⟨hr, -⟩ | ⟨-, -, e⟩ | ⟨-, -, -, e⟩ | ⟨-, -, -, e⟩ | ⟨-, -, i, -, e⟩ := perform_cases a s
  · simp [hw] at hr
  · cases e.symm.trans h; rfl
  · cases e.symm.trans h; exact s.raiseError_returned _
  · cases e.symm.trans h; exact s.raiseError_returned _
  · exact (exec_sameHostSide (e.symm.trans h)).returned

theorem performAll_writes_returned {as : List PortAccess} (has : ∀ a ∈ as, a.we = true) {s t : State}
    (h : performAll as s = .next t) : t.returned = s.returned := by
  induction as generalizing s with
  | nil => cases h; rfl
  | cons a as ih =>
    cases hp : perform a s with
    | next u =>
      rw [performAll_cons hp] at h
      exact (ih (fun b hb => has b (List.mem_cons_of_mem a hb)) h).trans
        (perform_write_returned (has a List.mem_cons_self) hp)
    | fault r => cases r
    | refused r => rw [performAll, hp] at h; cases h

/-- The read of an index. -/
def readAccess (idx : RegIndex) : PortAccess := { idx := idx, we := false, wdata := 0 }

/-- Reads return the registers' values, in order, and have no other effect (R54, R55). -/
theorem performAll_reads (idxs : List RegIndex) (s : State) :
    performAll (idxs.map readAccess) s =
      .next { s with
        returned := (idxs.map fun idx => { idx := idx, data := busRead idx s : ReadResult }).reverse ++ s.returned } := by
  induction idxs generalizing s with
  | nil => rfl
  | cons idx idxs ih =>
    rw [List.map_cons, performAll_cons (perform_of_read s rfl), ih, List.map_cons, List.reverse_cons, List.append_assoc]
    rfl

/-- The indexes DIGEST reads (R90). -/
def digestIndexes : List RegIndex := (List.range 8).map fun i => BitVec.ofNat 4 (8 + i)

/-- The words DIGEST reads are the state words (R54). -/
theorem digestIndexes_map_busRead (s : State) :
    (digestIndexes.map fun idx => { idx := idx, data := busRead idx s : ReadResult }) =
      (List.range 8).map fun i => { idx := BitVec.ofNat 4 (8 + i), data := s.H.toList.getD i 0 } := by
  rw [digestIndexes, List.map_map]
  refine List.map_congr_left fun i hi => ?_
  have hi : i < 8 := List.mem_range.mp hi
  have hread : busRead (BitVec.ofNat 4 (8 + i)) s = s.H[i] := busRead_digest s ⟨i, hi⟩
  simp [hread, hi]

/-- Settles O52: the message is fed, padded and read, and the writes before the reads return nothing. -/
theorem assembledHashReadsTheDigest : Obligations.AssembledHashReadsTheDigest := by
  rintro s bs _ hS ⟨⟩
  obtain ⟨as, hes, has, hbytes⟩ := bytesEvents_feed bs
  have hevents : commandEvent .init :: bytesEvents bs ++ commandEvent .close :: digestEvents =
      (commandAccess (encode .init) :: as ++ [commandAccess (encode .close)] ++ digestIndexes.map readAccess).map
        .access := by
    rw [hes, List.map_append, List.map_append, List.append_assoc]
    rfl
  rw [hevents, accessesOf_map_access]
  obtain ⟨t, hfed, ht⟩ := performAll_message (fun a ha => (has a ha).2) s (by rw [hbytes]; exact hS)
  rw [hbytes] at hfed
  have hH := hfed.pad_H rfl rfl rfl
  have hwrites : ∀ a ∈ commandAccess (encode .init) :: as ++ [commandAccess (encode .close)], a.we = true := by
    simp only [List.cons_append, List.mem_cons, List.mem_append, List.not_mem_nil, or_false]
    rintro a (rfl | ha | rfl)
    · rfl
    · exact (has a ha).1
    · rfl
  have hreturned := performAll_writes_returned hwrites ht
  refine ⟨rfl, _, _, (performAll_append _ _ ht).trans (performAll_reads _ _), congrArg (_ ++ ·) hreturned, ?_⟩
  rw [List.reverse_reverse, digestIndexes_map_busRead]
  simp only [hH]

end Sys2Proof.Machine
end

section
/-! PROOFS. The round function family: the bit-level functions bit by bit, and one round and its inverse (R100 to R107,
R121, R122). -/

namespace Sys2Proof.Machine

/-! ## Rotations, by bits -/

/-- The model's formula for ROTR is the library's rotation, for the amounts below the width. -/
theorem rotr_eq_rotateRight (x : Word) {n : Nat} (hn : n < 32) : rotr x n = x.rotateRight n := by
  rw [rotr, BitVec.rotateRight_def, Nat.mod_eq_of_lt hn]

/-- A rotation brings bit `(i + n) mod 32` to bit `i` (R100): below `32 - n` the sum does not wrap, from there on it
wraps once. -/
theorem getLsbD_rotr (x : Word) {n i : Nat} (hn : n < 32) (hi : i < 32) :
    (rotr x n).getLsbD i = x.getLsbD ((i + n) % 32) := by
  rw [rotr_eq_rotateRight x hn, BitVec.getLsbD_rotateRight, Nat.mod_eq_of_lt hn]
  by_cases h : i < 32 - n
  · have hsum : (i + n) % 32 = n + i := by omega
    simp only [h, hsum, decide_true, cond_true]
  · have hwrap : (i + n) % 32 = i - (32 - n) := by omega
    simp only [h, hi, hwrap, decide_true, decide_false, cond_false, Bool.true_and]

theorem getLsbD_allOnesWord : ∀ j, j < 32 → (0xFFFFFFFF : Word).getLsbD j = true := by decide

/-- A word with all its bits equal is fixed by every rotation. -/
theorem rotr_eq_self {x : Word} {b : Bool} (hx : ∀ j, j < 32 → x.getLsbD j = b) {n : Nat} (hn : n < 32) :
    rotr x n = x :=
  BitVec.eq_of_getLsbD_eq fun i hi => by
    rw [getLsbD_rotr x hn hi, hx _ (Nat.mod_lt _ (by decide)), hx i hi]

/-- Settles O4. -/
theorem rotationMovesBits : Obligations.RotationMovesBits := fun x _ _ _ hn hi =>
  ⟨getLsbD_rotr x hn hi, rotr_eq_self (fun _ _ => BitVec.getLsbD_zero) hn, rotr_eq_self getLsbD_allOnesWord hn⟩

/-! ## CH and MAJ, by bits -/

/-- CH chooses between two bits by the bit of its first operand (R102). -/
theorem getLsbD_ch (e f g : Word) {i : Nat} (hi : i < 32) :
    (ch e f g).getLsbD i = if e.getLsbD i then f.getLsbD i else g.getLsbD i := by
  simp only [ch, BitVec.getLsbD_xor, BitVec.getLsbD_and, BitVec.getLsbD_not, hi, decide_true, Bool.true_and]
  cases e.getLsbD i <;> simp

/-- MAJ on bits is its formula on words (R103). -/
theorem getLsbD_maj (a b c : Word) (i : Nat) :
    (maj a b c).getLsbD i =
      ((a.getLsbD i && b.getLsbD i) ^^ (a.getLsbD i && c.getLsbD i) ^^ (b.getLsbD i && c.getLsbD i)) := by
  simp only [maj, BitVec.getLsbD_xor, BitVec.getLsbD_and]

/-- A bit of MAJ is set when at least two of the operands have it (R103). -/
theorem getLsbD_maj_iff (a b c : Word) (i : Nat) :
    (maj a b c).getLsbD i = true ↔ 2 ≤ (a.getLsbD i).toNat + (b.getLsbD i).toNat + (c.getLsbD i).toNat := by
  have majority : ∀ p q r : Bool, (((p && q) ^^ (p && r) ^^ (q && r)) = true) ↔ 2 ≤ p.toNat + q.toNat + r.toNat := by
    decide
  rw [getLsbD_maj]
  exact majority _ _ _

theorem ch_zero (f g : Word) : ch 0 f g = g :=
  BitVec.eq_of_getLsbD_eq fun i hi => by simp [getLsbD_ch _ _ _ hi]

theorem ch_allOnes (f g : Word) : ch 0xFFFFFFFF f g = f :=
  BitVec.eq_of_getLsbD_eq fun i hi => by rw [getLsbD_ch _ _ _ hi, getLsbD_allOnesWord i hi, if_pos rfl]

theorem ch_self (e f : Word) : ch e f f = f :=
  BitVec.eq_of_getLsbD_eq fun i hi => by rw [getLsbD_ch _ _ _ hi, ite_self]

theorem maj_self (a b : Word) : maj a a b = a :=
  BitVec.eq_of_getLsbD_eq fun i _ => by
    rw [getLsbD_maj, Bool.and_self, Bool.xor_assoc, Bool.xor_self, Bool.xor_false]

theorem maj_zero_allOnes (a : Word) : maj 0 0xFFFFFFFF a = a :=
  BitVec.eq_of_getLsbD_eq fun i hi => by
    have hzero : (0 : Word).getLsbD i = false := BitVec.getLsbD_zero
    simp only [getLsbD_maj, getLsbD_allOnesWord i hi, hzero, Bool.false_and, Bool.true_and, Bool.false_xor]

/-- MAJ counts its operands' bits, and a sum does not depend on the order of its terms (R103). -/
theorem maj_comm (a b c : Word) : maj a b c = maj b a c :=
  BitVec.eq_of_getLsbD_eq fun i _ => by
    rw [Bool.eq_iff_iff, getLsbD_maj_iff, getLsbD_maj_iff, Nat.add_comm (a.getLsbD i).toNat]

theorem maj_right_comm (a b c : Word) : maj a b c = maj a c b :=
  BitVec.eq_of_getLsbD_eq fun i _ => by
    rw [Bool.eq_iff_iff, getLsbD_maj_iff, getLsbD_maj_iff, Nat.add_right_comm]

/-- Settles O5. -/
theorem chooseAndMajorityByBits : Obligations.ChooseAndMajorityByBits := fun x y z =>
  ⟨fun _ => getLsbD_ch x y z, fun i _ => getLsbD_maj_iff x y z i, ch_zero y z, ch_allOnes y z, ch_self x y,
    maj_self x y, maj_zero_allOnes y, maj_comm x y z, maj_right_comm x y z⟩

/-! ## The mixing functions, by bits -/

/-- A right shift brings bit `i + n` to bit `i`, and zeros from above bit 31 (R101). -/
theorem getLsbD_shr (x : Word) (n i : Nat) :
    (shr x n).getLsbD i = (decide (i + n < 32) && x.getLsbD (i + n)) := by
  rw [shr, BitVec.getLsbD_ushiftRight, Nat.add_comm n i]
  by_cases h : i + n < 32
  · simp [h]
  · simp [h, BitVec.getLsbD_of_ge x (i + n) (by omega)]

/-- Settles O6: each mixing function is an exclusive or of rotations, and SSIG also of a shift. -/
theorem mixingFunctionsByBits : Obligations.MixingFunctionsByBits := by
  intro x i hi
  have hrotr {n : Nat} (hn : n < 32) := getLsbD_rotr x hn hi
  refine ⟨?_, ?_, ?_, ?_⟩
  · simp only [bsig0, BitVec.getLsbD_xor, hrotr, Nat.reduceLT]
  · simp only [bsig1, BitVec.getLsbD_xor, hrotr, Nat.reduceLT]
  · simp only [ssig0, BitVec.getLsbD_xor, hrotr, getLsbD_shr, Nat.reduceLT]
  · simp only [ssig1, BitVec.getLsbD_xor, hrotr, getLsbD_shr, Nat.reduceLT]

/-! ## One round -/

/-- The inverse finds T2 in the copies `b`, `c` and `d`, so T1 in `a`, and takes T1's other terms off it (R107). -/
theorem shaRoundInverse_shaRound (v : Working) (k w : Word) : shaRoundInverse (shaRound v k w) k w = v := by
  have hT1 : roundT1 v k w + roundT2 v - (bsig0 v.a + maj v.a v.b v.c) = roundT1 v k w := BitVec.add_sub_cancel _ _
  have hh : roundT1 v k w - bsig1 v.e - ch v.e v.f v.g - k - w = v.h := by
    rw [roundT1]; abel
  simp only [shaRoundInverse, shaRound, hT1, BitVec.add_sub_cancel, hh]

/-- The inverse is one on the other side too: the T1 and T2 of the words it answers are those it found (R107). -/
theorem shaRound_shaRoundInverse (v : Working) (k w : Word) : shaRound (shaRoundInverse v k w) k w = v := by
  have hT1 : roundT1 (shaRoundInverse v k w) k w = v.a - (bsig0 v.b + maj v.b v.c v.d) := by
    simp only [roundT1, shaRoundInverse]; abel
  have hT2 : roundT2 (shaRoundInverse v k w) = bsig0 v.b + maj v.b v.c v.d := rfl
  rw [shaRound, hT1, hT2]
  simp only [shaRoundInverse, BitVec.sub_add_cancel]

/-- Settles O8: what a round answers determines its input, by `shaRoundInverse`. -/
theorem roundIsBijective : Obligations.RoundIsBijective := fun k w => by
  refine ⟨Function.bijective_iff_has_inverse.mpr ⟨fun v => shaRoundInverse v k w,
    fun v => shaRoundInverse_shaRound v k w, fun v => shaRound_shaRoundInverse v k w⟩,
    fun v => shaRoundInverse_shaRound v k w, ?_⟩
  intro v a b c d e f g h hround
  rw [← shaRoundInverse_shaRound v k w, hround]
  exact ⟨rfl, rfl, rfl, rfl, rfl, rfl, rfl, rfl⟩

theorem roundT1_toNat (v : Working) (k w : Word) :
    (roundT1 v k w).toNat =
      (v.h.toNat + (bsig1 v.e).toNat + (ch v.e v.f v.g).toNat + k.toNat + w.toNat) % 2 ^ 32 := by
  simp only [roundT1, BitVec.toNat_add, Nat.mod_add_mod]

theorem roundT2_toNat (v : Working) :
    (roundT2 v).toNat = ((bsig0 v.a).toNat + (maj v.a v.b v.c).toNat) % 2 ^ 32 := BitVec.toNat_add _ _

/-- Settles O7: reducing T1 and T2 before the last sum changes nothing modulo 2^32. -/
theorem roundInModularArithmetic : Obligations.RoundInModularArithmetic := fun v k w => by
  refine ⟨_, _, rfl, rfl, ?_, ?_, rfl, rfl, rfl, rfl, rfl, rfl⟩
  · rw [shaRound, BitVec.toNat_add, roundT1_toNat, roundT2_toNat, ← Nat.add_mod]
  · rw [shaRound, BitVec.toNat_add, roundT1_toNat, Nat.add_mod_mod]

end Sys2Proof.Machine
end

section
/-! PROOFS. The message schedule family: the schedule as an extension of the block words, its recurrence, and the
organisation with a 16-word window (R120, R123, R124). -/

namespace Sys2Proof.Machine

/-! ## What the next schedule word reads -/

/-- The recurrence reads the last 16 words only, so the words before them do not matter. -/
theorem nextScheduleWord_append (P : List Word) {L : List Word} (hL : 16 ≤ L.length) :
    nextScheduleWord (P ++ L) = nextScheduleWord L := by
  have hread (k : Nat) (hk : k ≤ 16) : (P ++ L).getD ((P ++ L).length - k) 0 = L.getD (L.length - k) 0 := by
    rw [List.length_append, Nat.add_sub_assoc (hk.trans hL), List.getD_append_right _ _ _ _ (Nat.le_add_right _ _),
      Nat.add_sub_cancel_left]
  simp only [nextScheduleWord, hread 2 (by decide), hread 7 (by decide), hread 15 (by decide), hread 16 (by decide)]

/-- The word that follows the first `i` words of `W`, in words of `W` (R123). -/
theorem nextScheduleWord_take {W : List Word} {i : Nat} (hi : 16 ≤ i) (hiW : i ≤ W.length) :
    nextScheduleWord (W.take i) =
      ssig1 (W.getD (i - 2) 0) + W.getD (i - 7) 0 + ssig0 (W.getD (i - 15) 0) + W.getD (i - 16) 0 := by
  have hread (k : Nat) (hk : k < i) : (W.take i).getD k 0 = W.getD k 0 := by
    rw [List.getD, List.getD, List.getElem?_take_of_lt hk]
  rw [nextScheduleWord, List.length_take, Nat.min_eq_left hiW, hread _ (by omega), hread _ (by omega),
    hread _ (by omega), hread _ (by omega)]

/-! ## The extended schedule -/

@[simp] theorem extendSchedule_length (n : Nat) (W : List Word) :
    (extendSchedule n W).length = W.length + n := by
  induction n generalizing W with
  | zero => rfl
  | succ n ih => rw [extendSchedule, ih, List.length_append, List.length_singleton]; omega

/-- Extending only adds words at the end. -/
theorem prefix_extendSchedule (n : Nat) (W : List Word) : W <+: extendSchedule n W := by
  induction n generalizing W with
  | zero => exact List.prefix_refl W
  | succ n ih => exact (List.prefix_append W _).trans (ih _)

theorem extendSchedule_getD_of_lt (n : Nat) {W : List Word} {i : Nat} (hi : i < W.length) :
    (extendSchedule n W).getD i 0 = W.getD i 0 := by
  obtain ⟨V, hV⟩ := prefix_extendSchedule n W
  rw [← hV, List.getD_append _ _ _ _ hi]

/-- Every added word is the one that follows the words before it. -/
theorem extendSchedule_getD_of_le {n : Nat} {W : List Word} {i : Nat} (hi : W.length ≤ i) (hin : i < W.length + n) :
    (extendSchedule n W).getD i 0 = nextScheduleWord ((extendSchedule n W).take i) := by
  induction n generalizing W with
  | zero => omega
  | succ n ih =>
    rw [extendSchedule]
    have hlen : (W ++ [nextScheduleWord W]).length = W.length + 1 := List.length_append
    obtain rfl | hlt := hi.eq_or_lt
    · have htake : (extendSchedule n (W ++ [nextScheduleWord W])).take W.length = W :=
        (List.prefix_iff_eq_take.mp ((List.prefix_append W _).trans (prefix_extendSchedule n _))).symm
      rw [htake, extendSchedule_getD_of_lt n (by omega), List.getD_append_right _ _ _ _ le_rfl, Nat.sub_self]
      rfl
    · exact ih (by omega) (by omega)

@[simp] theorem blockWords_length (B : Vector Byte 64) : (blockWords B).length = 16 := List.length_ofFn

theorem blockWords_getD (B : Vector Byte 64) (j : Fin 16) : (blockWords B).getD j.val 0 = blockWord B j := by
  rw [List.getD_eq_getElem _ _ (by simp)]
  exact List.getElem_ofFn _

@[simp] theorem schedule_length (B : Vector Byte 64) : (schedule B).length = 64 := by
  rw [schedule, extendSchedule_length, blockWords_length]

/-- Settles O9: the block words stand first, and the words added are read off `extendSchedule_getD_of_le`. -/
theorem scheduleRecurrence : Obligations.ScheduleRecurrence := fun B => by
  refine ⟨schedule_length B, fun j => ?_, fun i hi hi64 => ?_⟩
  · rw [schedule, extendSchedule_getD_of_lt 48 (by simp)]
    exact blockWords_getD B j
  · have hnext : (schedule B).getD i 0 = nextScheduleWord ((schedule B).take i) :=
      extendSchedule_getD_of_le (by simpa using hi) (by simpa using hi64)
    rw [hnext, nextScheduleWord_take hi (by simpa using hi64.le)]

/-! ## The 16-word window -/

/-- The first words a window gives out are its own, in order. -/
theorem windowedSchedule_eq_take {n : Nat} {win : List Word} (hn : n ≤ win.length) :
    windowedSchedule n win = win.take n := by
  induction n generalizing win with
  | zero => rfl
  | succ n ih =>
    cases win with
    | nil => cases hn
    | cons w rest =>
      have hrest : n ≤ rest.length := Nat.le_of_succ_le_succ hn
      have hmove : windowedSchedule (n + 1) (w :: rest) =
          w :: windowedSchedule n (rest ++ [nextScheduleWord (w :: rest)]) := rfl
      rw [hmove, ih (by rw [List.length_append]; omega), List.take_append_of_le_length hrest, List.take_succ_cons]

/-- The words `P` that have left the window, and then those it goes on to give out, are the schedule `P ++ win`
extended: the window always holds the last 16 words (R124). -/
theorem append_windowedSchedule (n : Nat) (P : List Word) {win : List Word} (hwin : win.length = 16) :
    P ++ windowedSchedule (n + 16) win = extendSchedule n (P ++ win) := by
  induction n generalizing P win with
  | zero => rw [extendSchedule, Nat.zero_add, windowedSchedule_eq_take hwin.ge, ← hwin, List.take_length]
  | succ n ih =>
    have hnext : nextScheduleWord (P ++ win) = nextScheduleWord win := nextScheduleWord_append P hwin.ge
    rw [extendSchedule, hnext]
    cases win with
    | nil => cases hwin
    | cons w rest =>
      have hlen : (rest ++ [nextScheduleWord (w :: rest)]).length = 16 := by
        rw [List.length_append]; exact hwin
      calc P ++ windowedSchedule (n + 1 + 16) (w :: rest)
        _ = (P ++ [w]) ++ windowedSchedule (n + 16) (rest ++ [nextScheduleWord (w :: rest)]) := by
          rw [Nat.add_right_comm, List.append_assoc]; rfl
        _ = extendSchedule n ((P ++ [w]) ++ (rest ++ [nextScheduleWord (w :: rest)])) := ih _ hlen
        _ = extendSchedule n (P ++ w :: rest ++ [nextScheduleWord (w :: rest)]) := by
          simp only [List.append_assoc, List.cons_append, List.nil_append]

theorem windowedSchedule_blockWords (B : Vector Byte 64) : windowedSchedule 64 (blockWords B) = schedule B :=
  append_windowedSchedule 48 [] (blockWords_length B)

/-- Settles O10: with no word given out yet, `append_windowedSchedule` is the equality of the two schedules. -/
theorem windowedScheduleRefines : Obligations.WindowedScheduleRefines := fun H B =>
  ⟨windowedSchedule_blockWords B, by rw [compressWindowed, compress, windowedSchedule_blockWords]⟩

end Sys2Proof.Machine
end

section
/-! PROOFS. The compression family: the 64 rounds of one compression (R135), and the constant tables as roots of primes
(R133, R134). -/

namespace Sys2Proof.Machine

/-! ## The rounds of one compression -/

/-- One more pair is one more round after the others. -/
theorem runRounds_append_singleton (v : Working) (kws : List (Word × Word)) (kw : Word × Word) :
    runRounds v (kws ++ [kw]) = shaRound (runRounds v kws) kw.1 kw.2 := by
  induction kws generalizing v with
  | nil => rfl
  | cons kw' kws ih => exact ih _

@[simp] theorem roundConstants_length : roundConstants.length = 64 := rfl

/-- The working variables after the first `t` rounds of the compression of a block from `H`. -/
def workingAfter (H : Vector Word 8) (B : Vector Byte 64) (t : Nat) : Working :=
  runRounds (loadWorking H) ((roundConstants.zip (schedule B)).take t)

/-- Round `t` uses `K[t]` and `W[t]` (R135). -/
theorem workingAfter_succ (H : Vector Word 8) (B : Vector Byte 64) {t : Nat} (ht : t < 64) :
    workingAfter H B (t + 1) =
      shaRound (workingAfter H B t) (roundConstants.getD t 0) ((schedule B).getD t 0) := by
  have hK : t < roundConstants.length := ht
  have hW : t < (schedule B).length := by simpa using ht
  have hzip : t < (roundConstants.zip (schedule B)).length := by simpa using ht
  rw [workingAfter, List.take_succ_eq_append_getElem hzip, runRounds_append_singleton, List.getElem_zip,
    List.getD_eq_getElem _ _ hK, List.getD_eq_getElem _ _ hW]
  rfl

/-- The variables that are fed forward are those after 64 rounds: no pair is left over (R135). -/
theorem compress_eq_addWorking (H : Vector Word 8) (B : Vector Byte 64) :
    compress H B = addWorking H (workingAfter H B 64) := by
  rw [compress, workingAfter, List.take_of_length_le (by simp)]

/-- Settles O11: the variables `v` are `workingAfter`. -/
theorem compressRunsTheRounds : Obligations.CompressRunsTheRounds := fun s =>
  ⟨workingAfter s.H s.buf, rfl, fun _ => workingAfter_succ s.H s.buf, by
    rw [State.compressBuffer, compress_eq_addWorking, addWorking]⟩

/-! ## The first 64 primes -/

/-- Below `n`, the numbers with a property stand in a list at the index `Nat.nth` gives them. -/
theorem nth_eq_getD_filter_range (p : Nat → Prop) [DecidablePred p] {n k : Nat}
    (hk : k < ((List.range n).filter p).length) : Nat.nth p k = ((List.range n).filter p).getD k 0 := by
  induction n with
  | zero => cases hk
  | succ n ih =>
    rw [List.range_succ, List.filter_append] at hk ⊢
    obtain hlt | hge := Nat.lt_or_ge k ((List.range n).filter p).length
    · rw [List.getD_append _ _ _ _ hlt, ih hlt]
    · by_cases hn : p n
      · have hlen : Nat.count p n = ((List.range n).filter p).length := List.countP_eq_length_filter
        have hlast : [n].filter p = [n] := List.filter_cons_of_pos (by simpa using hn)
        rw [hlast, List.length_append, List.length_singleton] at hk
        obtain rfl : k = Nat.count p n := by omega
        rw [hlast, List.getD_append_right _ _ _ _ hge, hlen, Nat.sub_self, ← hlen, Nat.nth_count hn]
        rfl
      · have hnone : [n].filter p = [] := List.filter_cons_of_neg (by simpa using hn)
        rw [hnone, List.append_nil] at hk
        omega

/-- Trial division by 2 to 17, as far as the square root. -/
def passesTrialDivision (n : Nat) : Bool :=
  2 ≤ n && (List.range 18).all fun m => m < 2 || n < m * m || n % m != 0

/-- The least factor other than 1 of a composite number is at most its square root, so 17 is far enough below 18^2. -/
theorem passesTrialDivision_iff_prime {n : Nat} (hn : n < 18 ^ 2) : passesTrialDivision n = true ↔ n.Prime := by
  have hsmall (m : Nat) (hm : m * m ≤ n) : m < 18 := by
    by_contra hge
    have := Nat.mul_self_le_mul_self (Nat.le_of_not_lt hge)
    omega
  simp only [passesTrialDivision, Nat.prime_def_le_sqrt, Nat.le_sqrt, Nat.dvd_iff_mod_eq_zero, Bool.and_eq_true,
    List.all_eq_true, List.mem_range, Bool.or_eq_true, decide_eq_true_eq, bne_iff_ne]
  refine and_congr_right fun _ => ⟨fun h m h2 hm => ?_, fun h m _ => ?_⟩
  · obtain (hlt | hlt) | hmod := h m (hsmall m hm)
    · omega
    · omega
    · exact hmod
  · by_cases hm : 2 ≤ m ∧ m * m ≤ n
    · exact .inr (h m hm.1 hm.2)
    · omega

/-- The primes from 2 to 311, one for each round constant (R133). -/
def firstPrimes : List Nat :=
  [2, 3, 5, 7, 11, 13, 17, 19, 23, 29, 31, 37, 41, 43, 47, 53,
   59, 61, 67, 71, 73, 79, 83, 89, 97, 101, 103, 107, 109, 113, 127, 131,
   137, 139, 149, 151, 157, 163, 167, 173, 179, 181, 191, 193, 197, 199, 211, 223,
   227, 229, 233, 239, 241, 251, 257, 263, 269, 271, 277, 281, 283, 293, 307, 311]

/-- `firstPrimes` leaves out no prime up to its last. -/
theorem filter_prime_range_eq_firstPrimes : (List.range 312).filter Nat.Prime = firstPrimes := by
  have htest : ∀ n ∈ List.range 312, decide n.Prime = passesTrialDivision n := fun n hn => by
    rw [Bool.eq_iff_iff, decide_eq_true_iff, passesTrialDivision_iff_prime (by have := List.mem_range.mp hn; omega)]
  rw [List.filter_congr htest]
  decide +kernel

/-- The `t`-th prime, counted from 0. -/
theorem nth_prime_eq_firstPrimes {t : Nat} (ht : t < 64) : Nat.nth Nat.Prime t = firstPrimes.getD t 0 := by
  rw [← filter_prime_range_eq_firstPrimes]
  exact nth_eq_getD_filter_range Nat.Prime (by rw [filter_prime_range_eq_firstPrimes]; exact ht)

/-! ## The constant tables as roots of primes -/

/-- `IV[i]` is the low word of the integer square root (R134). -/
theorem initialWords_eq_nthRoot :
    ∀ i : Fin 8, initialWords[i].toNat = Nat.nthRoot 2 (firstPrimes.getD i.val 0 * 2 ^ 64) % 2 ^ 32 := by
  decide +kernel

/-- `K[t]` is the low word of the integer cube root (R133). -/
theorem roundConstants_eq_nthRoot :
    ∀ t : Fin 64, (roundConstants.getD t.val 0).toNat =
      Nat.nthRoot 3 (firstPrimes.getD t.val 0 * 2 ^ 96) % 2 ^ 32 := by
  decide +kernel

/-- Settles O12: `Nat.nthRoot 2` is the integer square root, and the prime of index `i` stands in `firstPrimes`. -/
theorem initialWordsFromSquareRoots : Obligations.InitialWordsFromSquareRoots := fun i => by
  rw [nth_prime_eq_firstPrimes (by omega)]
  exact ⟨_, Nat.pow_nthRoot_le (.inl two_ne_zero), Nat.lt_pow_nthRoot_add_one two_ne_zero _, initialWords_eq_nthRoot i⟩

/-- Settles O13: `Nat.nthRoot 3` is the integer cube root, and the prime of index `t` stands in `firstPrimes`. -/
theorem roundConstantsFromCubeRoots : Obligations.RoundConstantsFromCubeRoots := by
  refine ⟨roundConstants_length, nth_prime_eq_firstPrimes (by decide), fun t => ?_⟩
  rw [nth_prime_eq_firstPrimes t.isLt]
  exact ⟨_, Nat.pow_nthRoot_le (.inl three_ne_zero), Nat.lt_pow_nthRoot_add_one three_ne_zero _,
    roundConstants_eq_nthRoot t⟩

end Sys2Proof.Machine
end

section
/-! PROOFS. The streaming input family: what one WRITE stores and compresses (R150, R151, R156, R157, R160), and what
the WRITE commands of a sequence of accesses leave, whatever their chunks (R159, R161). -/

namespace Sys2Proof.Machine

/-! ## One WRITE -/

/-- The buffer with the bytes that still fit into its block (R152). -/
def State.currentBlock (s : State) (bs : List Byte) : Vector Byte 64 :=
  overlay s.buf s.curlen.toNat (bs.take (64 - s.curlen.toNat))

/-- The buffer once the bytes past that block have started the next one (R152). -/
def State.bufferAfter (s : State) (bs : List Byte) : Vector Byte 64 :=
  overlay (s.currentBlock bs) 0 (bs.drop (64 - s.curlen.toNat))

/-- Bytes that reach at most one block end: `absorbAll_open` and `absorbAll_cross` as one equation (R160). -/
theorem State.absorbAll_eq {s : State} {bs : List Byte} (h : s.curlen.toNat + bs.length < 128) :
    s.absorbAll bs =
      { s with
        H := if s.curlen.toNat + bs.length < 64 then s.H else compress s.H (s.currentBlock bs)
        buf := s.bufferAfter bs
        curlen := BitVec.ofNat 6 ((s.curlen.toNat + bs.length) % 64)
        pend := s.pend + (s.curlen.toNat + bs.length) / 64 } := by
  by_cases hopen : s.curlen.toNat + bs.length < 64
  · have htake : bs.take (64 - s.curlen.toNat) = bs := List.take_of_length_le (by omega)
    have hdrop : bs.drop (64 - s.curlen.toNat) = [] := List.drop_of_length_le (by omega)
    rw [State.absorbAll_open s bs hopen, if_pos hopen, State.bufferAfter, State.currentBlock, htake, hdrop,
      overlay_nil, Nat.mod_eq_of_lt hopen, Nat.div_eq_of_lt hopen, Nat.add_zero]
  · have hmod : (s.curlen.toNat + bs.length) % 64 = s.curlen.toNat + bs.length - 64 := by omega
    have hdiv : (s.curlen.toNat + bs.length) / 64 = 1 := by omega
    rw [State.absorbAll_cross s bs (by omega) h, if_neg hopen, hmod, hdiv]
    rfl

theorem State.currentBlock_getElem (s : State) (bs : List Byte) {j : Nat} (hj : j < 64) :
    (s.currentBlock bs)[j] =
      if s.curlen.toNat ≤ j ∧ j < s.curlen.toNat + bs.length then bs.getD (j - s.curlen.toNat) 0 else s.buf[j] := by
  rw [State.currentBlock, overlay_getElem, List.length_take]
  by_cases hnew : s.curlen.toNat ≤ j ∧ j < s.curlen.toNat + bs.length
  · rw [if_pos (by omega), if_pos hnew, List.getD, List.getD, List.getElem?_take_of_lt (by omega)]
  · rw [if_neg (by omega), if_neg hnew]

theorem State.bufferAfter_getElem (s : State) (bs : List Byte) {j : Nat} (hj : j < 64) :
    (s.bufferAfter bs)[j] =
      if j + 64 < s.curlen.toNat + bs.length then bs.getD (j + 64 - s.curlen.toNat) 0 else (s.currentBlock bs)[j] := by
  have hlt := s.curlen.isLt
  rw [State.bufferAfter, overlay_getElem, List.length_drop]
  by_cases hnew : j + 64 < s.curlen.toNat + bs.length
  · have hindex : 64 - s.curlen.toNat + (j - 0) = j + 64 - s.curlen.toNat := by omega
    rw [if_pos (by omega), if_pos hnew, List.getD, List.getD, List.getElem?_drop, hindex]
  · rw [if_neg (by omega), if_neg hnew]

/-- Byte `k` of a WRITE is `din[31-8k:24-8k]` (R151). -/
theorem messageBytes_getD (din : Word) {nb k : Nat} (hk : k < nb) :
    (messageBytes din nb).getD k 0 = din.extractLsb' (24 - 8 * k) 8 := by
  simp [messageBytes, byteOfWord, List.getD, hk]

/-- Settles O16: an accepted WRITE absorbs at most four bytes, which reach at most one block end. -/
theorem writeAbsorbsItsBytes : Obligations.WriteAbsorbsItsBytes := by
  intro s nb h1 h4 he hp hl
  have hlt := s.curlen.isLt
  have hlen := messageBytes_length s.din nb
  refine ⟨s.currentBlock (messageBytes s.din nb), s.bufferAfter (messageBytes s.din nb),
    fun j => ?_, fun j => ?_, by omega, ?_⟩
  · rw [Fin.getElem_fin, State.currentBlock_getElem, hlen]
    by_cases hbelow : j.val < s.curlen.toNat
    · rw [if_neg (by omega), if_pos hbelow]
      rfl
    by_cases hnew : j.val < s.curlen.toNat + nb
    · rw [if_pos (by omega), if_neg hbelow, if_pos hnew, messageBytes_getD s.din (by omega)]
    · rw [if_neg (by omega), if_neg hbelow, if_neg hnew]
      rfl
  · rw [Fin.getElem_fin, State.bufferAfter_getElem, hlen]
    by_cases hnew : j.val + 64 < s.curlen.toNat + nb
    · rw [if_pos hnew, if_pos hnew, messageBytes_getD s.din (by omega)]
    · rw [if_neg hnew, if_neg hnew]
      rfl
  · have hexec := execWrite_accepted s nb ⟨h1, h4⟩ he (s.phase.acceptsData_iff.mpr hp) hl
    rw [State.absorbAll_eq (by omega), hlen] at hexec
    exact hexec

/-- Settles O20: the two outcomes of a WRITE where data is accepted. -/
theorem lengthNeverWraps : Obligations.LengthNeverWraps := by
  intro s nb h1 h4 he hp
  have hdata := s.phase.acceptsData_iff.mpr hp
  refine ⟨execWrite_lengthOverflow s nb ⟨h1, h4⟩ he hdata, fun hl => ?_⟩
  obtain ⟨t, ht, -, hfed⟩ := execWrite_fed ⟨h1, h4⟩ he hdata hl
  have hlen : t.length.toNat = s.length.toNat + 8 * nb := by rw [hfed.length, messageBytes_length]
  exact ⟨t, ht, hfed.err, hlen, fun hbytes => by omega⟩

/-! ## Sequences that end without an error -/

/-- A WRITE after which no error is recorded was accepted (R202). -/
theorem fed_of_execWrite {s t : State} {nb : Nat} (h : execWrite nb s = .next t) (ht : t.err = .none) :
    s.err = .none ∧ t.din = s.din ∧ s.Fed (messageBytes s.din nb) t := by
  rcases execWrite_cases s nb with ⟨_, e⟩ | ⟨hnb, ⟨he, e⟩ | ⟨_, _, e⟩ | ⟨_, _, _, e⟩ | ⟨he, hp, hl, _⟩⟩
  · rw [e] at h; cases h
  · rw [e] at h; cases h; exact absurd ht he
  · rw [e] at h; cases h; cases ht
  · rw [e] at h; cases h; cases ht
  · obtain ⟨u, hu, hdin, hfed⟩ := execWrite_fed hnb he hp hl
    rw [hu] at h; cases h
    exact ⟨he, hdin, hfed⟩

/-- An access that feeds and leaves no error recorded found none, and fed the bytes that `fedBytes` counts for it. -/
theorem fed_of_perform {s t : State} {a : PortAccess} (ha : a.Feeds) (h : perform a s = .next t) (ht : t.err = .none)
    (as : List PortAccess) :
    s.err = .none ∧ ∃ bs, s.Fed bs t ∧ fedBytes s.din (a :: as) = bs ++ fedBytes t.din as := by
  by_cases hw : a.we = false
  · rw [perform_of_read s hw] at h; cases h
    exact ⟨ht, [], ⟨rfl, rfl, rfl, rfl, rfl, ht⟩, fedBytes_cons_read hw⟩
  obtain h2 | hnop | ⟨nb, hwrite⟩ := ha.resolve_left hw
  · rw [Bool.not_eq_false] at hw
    rw [perform_of_dinWrite s hw h2] at h; cases h
    exact ⟨ht, [], ⟨rfl, rfl, rfl, rfl, rfl, ht⟩, fedBytes_cons_din hw h2⟩
  · rw [perform_of_carries hnop] at h; cases h
    exact ⟨ht, [], .refl ht, fedBytes_cons_command hnop fun _ h => by cases h⟩
  · rw [perform_of_carries hwrite] at h
    obtain ⟨he, hdin, hfed⟩ := fed_of_execWrite h ht
    exact ⟨he, _, hfed, hdin ▸ fedBytes_cons_write hwrite⟩

/-- The first access of a sequence that completes completes. -/
theorem exists_perform_of_performAll_cons {a : PortAccess} {as : List PortAccess} {s t : State}
    (h : performAll (a :: as) s = .next t) : ∃ u, perform a s = .next u ∧ performAll as u = .next t := by
  cases hp : perform a s with
  | next u => exact ⟨u, rfl, performAll_cons hp ▸ h⟩
  | fault r => rw [performAll, hp] at h; cases h
  | refused r => rw [performAll, hp] at h; cases h

/-- Accesses that feed and leave no error recorded found none, and fed their bytes in order (R159). -/
theorem fed_of_performAll {as : List PortAccess} (has : ∀ a ∈ as, a.Feeds) {s t : State}
    (h : performAll as s = .next t) (ht : t.err = .none) : s.err = .none ∧ s.Fed (fedBytes s.din as) t := by
  induction as generalizing s with
  | nil => cases h; exact ⟨ht, .refl ht⟩
  | cons a as ih =>
    obtain ⟨u, hu, hrest⟩ := exists_perform_of_performAll_cons h
    obtain ⟨hue, hut⟩ := ih (fun b hb => has b (List.mem_cons_of_mem a hb)) hrest
    obtain ⟨he, bs, hsu, hbytes⟩ := fed_of_perform (has a List.mem_cons_self) hu hue as
    exact ⟨he, hbytes ▸ hsu.trans hut⟩

/-- Settles O47: either sequence leaves what its bytes, absorbed from `s`, leave. -/
theorem chunkingInvariance : Obligations.ChunkingInvariance := by
  intro s t u as bs has hbs ht hu hte hue hbytes
  obtain ⟨-, hft⟩ := fed_of_performAll has ht hte
  obtain ⟨-, hfu⟩ := fed_of_performAll hbs hu hue
  rw [← hbytes] at hfu
  have hbuf : t.buf = u.buf := hft.buf.trans hfu.buf.symm
  exact ⟨hft.H.trans hfu.H.symm, hft.curlen.trans hfu.curlen.symm,
    BitVec.eq_of_toNat_eq (hft.length.trans hfu.length.symm), fun j _ => by rw [hbuf]⟩

/-! ## The closed form -/

/-- From a block boundary, the valid bytes of the buffer are those after the last whole block (R161). -/
theorem State.absorbAll_buf_getElem {s : State} (hc : s.curlen = 0) (bs : List Byte) (j : Fin 64)
    (hj : j.val < bs.length % 64) :
    (s.absorbAll bs).buf[j] = bs.getD (64 * (bs.length / 64) + j.val) 0 := by
  obtain ⟨n, hn⟩ : ∃ n, n = 64 * (bs.length / 64) := ⟨_, rfl⟩
  have hwhole : (s.absorbAll (bs.take n)).curlen.toNat = 0 := by
    have hc0 : s.curlen.toNat = 0 := by rw [hc]; rfl
    rw [State.absorbAll_curlen, hc0, List.length_take]
    omega
  have hrest : (bs.drop n).length = bs.length % 64 := by rw [List.length_drop]; omega
  have hsplit : s.absorbAll bs = (s.absorbAll (bs.take n)).absorbAll (bs.drop n) := by
    rw [← State.absorbAll_append, List.take_append_drop]
  rw [hsplit, State.absorbAll_open _ _ (by omega), hwhole, Fin.getElem_fin, overlay_getElem, if_pos (by omega), ← hn,
    List.getD, List.getD, List.getElem?_drop, Nat.sub_zero]

/-- Settles O48: INIT leaves an empty message, and the bytes fed to it are absorbed from a block boundary. -/
theorem streamingClosedForm : Obligations.StreamingClosedForm := by
  rintro s₀ s as S hinit has rfl hlen
  rw [exec_init] at hinit; cases hinit
  have hcurlen0 : s₀.afterInit.curlen.toNat = 0 := rfl
  have hlength0 : s₀.afterInit.length.toNat = 0 := rfl
  obtain ⟨t, ht, hfed⟩ := performAll_feeds has (s := s₀.afterInit) rfl rfl (by omega)
  refine ⟨t, ht, hfed.err, ?_, ?_, fun j hj => ?_, ?_, hfed.phase⟩
  · rw [hfed.H, State.absorbAll_H rfl]
    rfl
  · rw [hfed.curlen, State.absorbAll_curlen, hcurlen0, Nat.zero_add]
  · rw [hfed.buf]
    exact State.absorbAll_buf_getElem rfl _ j hj
  · rw [hfed.length, hlength0, Nat.zero_add]

end Sys2Proof.Machine
end

section
/-! PROOFS. The padding and finalize family: the bytes and blocks of the padding (R171 to R174), what CLOSE leaves and
how long it stays (R175, R177), and the digest as bytes (R178). -/

namespace Sys2Proof.Machine

/-! ## The padding as bytes -/

theorem lengthBytes_eq (L : Length) :
    lengthBytes L =
      [L.extractLsb' 56 8, L.extractLsb' 48 8, L.extractLsb' 40 8, L.extractLsb' 32 8,
       L.extractLsb' 24 8, L.extractLsb' 16 8, L.extractLsb' 8 8, L.extractLsb' 0 8] := rfl

/-- Byte `k` of the length field is `L[63-8k:56-8k]` (R173). -/
theorem lengthBytes_getD (L : Length) {k : Nat} (hk : k < 8) :
    (lengthBytes L).getD k 0 = L.extractLsb' (56 - 8 * k) 8 := by
  simp [lengthBytes, List.getD, hk]

/-- Settles O18: `State.pad_eq` with its number of zeros. -/
theorem paddingClosedForm : Obligations.PaddingClosedForm := by
  intro s L
  have hlt := s.curlen.isLt
  have hpad := State.pad_eq s L
  rw [lengthBytes_eq] at hpad
  exact ⟨(55 + 64 - s.curlen.toNat) % 64, by omega, by omega, hpad, by omega, s.pad_curlen L, s.pad_pend L⟩

/-! ## The padding as blocks -/

theorem overlay_append (buf : Vector Byte 64) (c : Nat) (as bs : List Byte) :
    overlay buf c (as ++ bs) = overlay (overlay buf c as) (c + as.length) bs := by
  apply Vector.ext
  intro j hj
  rw [overlay_getElem, overlay_getElem, overlay_getElem, List.length_append]
  by_cases hbs : c + as.length ≤ j ∧ j < c + as.length + bs.length
  · rw [if_pos (by omega), if_pos hbs, List.getD_append_right _ _ _ _ (by omega), Nat.sub_add_eq]
  · rw [if_neg hbs]
    by_cases has : c ≤ j ∧ j < c + as.length
    · rw [if_pos (by omega), if_pos has, List.getD_append _ _ _ _ (by omega)]
    · rw [if_neg (by omega), if_neg has]

/-- The buffer with 0x80 stored at `curlen` and `n` zeros after it (R172). -/
def State.markedBlock (s : State) (n : Nat) : Vector Byte 64 :=
  overlay s.buf s.curlen.toNat (0x80 :: List.replicate n 0x00)

theorem State.markedBlock_getElem (s : State) {n j : Nat} (hj : j < 64) (hn : j ≤ s.curlen.toNat + n) :
    (s.markedBlock n)[j] = if j < s.curlen.toNat then s.buf[j] else if j = s.curlen.toNat then 0x80 else 0x00 := by
  rw [State.markedBlock, overlay_getElem, List.length_cons, List.length_replicate]
  obtain hbelow | rfl | habove := Nat.lt_trichotomy j s.curlen.toNat
  · rw [if_neg (by omega), if_pos hbelow]
  · rw [if_pos (by omega), if_neg (by omega), if_pos rfl, Nat.sub_self]
    rfl
  · obtain ⟨k, rfl⟩ : ∃ k, j = s.curlen.toNat + (k + 1) := ⟨j - s.curlen.toNat - 1, by omega⟩
    rw [if_pos (by omega), if_neg (by omega), if_neg (by omega), Nat.add_sub_cancel_left, List.getD_cons_succ]
    exact List.getD_replicate _ (by omega)

/-- A block with the length field in its last 8 bytes (R173). -/
def lengthBlock (buf : Vector Byte 64) (L : Length) : Vector Byte 64 := overlay buf 56 (lengthBytes L)

theorem lengthBlock_getElem (buf : Vector Byte 64) (L : Length) {j : Nat} (hj : j < 64) :
    (lengthBlock buf L)[j] = if 56 ≤ j then L.extractLsb' (56 - 8 * (j - 56)) 8 else buf[j] := by
  rw [lengthBlock, overlay_getElem, lengthBytes_length]
  by_cases hfield : 56 ≤ j
  · rw [if_pos ⟨hfield, hj⟩, if_pos hfield, lengthBytes_getD L (by omega)]
  · rw [if_neg (by omega), if_neg hfield]

/-- The length field hides what stood in the last 8 bytes. -/
theorem lengthBlock_congr {buf buf' : Vector Byte 64} (L : Length)
    (h : ∀ (j : Nat) (hj : j < 56), buf[j] = buf'[j]) : lengthBlock buf L = lengthBlock buf' L := by
  apply Vector.ext
  intro j hj
  rw [lengthBlock_getElem, lengthBlock_getElem]
  by_cases hfield : 56 ≤ j
  · rw [if_pos hfield, if_pos hfield]
  · rw [if_neg hfield, if_neg hfield, h j (by omega)]

/-- The buffer padded to its end with 0x80 and zeros. -/
def State.firstPadBlock (s : State) : Vector Byte 64 := s.markedBlock (63 - s.curlen.toNat)

/-- The block that ends the padding: the current one where the length field has room in it, else one of zeros. -/
def State.lastPadBlock (s : State) (L : Length) : Vector Byte 64 :=
  lengthBlock (if s.curlen.toNat ≤ 55 then s.firstPadBlock else Vector.replicate 64 0x00) L

theorem State.firstPadBlock_getElem (s : State) {j : Nat} (hj : j < 64) :
    s.firstPadBlock[j] = if j < s.curlen.toNat then s.buf[j] else if j = s.curlen.toNat then 0x80 else 0x00 :=
  s.markedBlock_getElem hj (by omega)

theorem State.lastPadBlock_getElem (s : State) (L : Length) {j : Nat} (hj : j < 64) :
    (s.lastPadBlock L)[j] =
      if 56 ≤ j then L.extractLsb' (56 - 8 * (j - 56)) 8
      else if s.curlen.toNat ≤ 55 then s.firstPadBlock[j] else 0x00 := by
  rw [State.lastPadBlock, lengthBlock_getElem]
  by_cases hroom : s.curlen.toNat ≤ 55
  · simp only [if_pos hroom]
  · simp only [if_neg hroom, Vector.getElem_replicate]

/-- A block with room for the length field is padded to its end (R174). -/
theorem State.pad_eq_of_le {s : State} (L : Length) (h : s.curlen.toNat ≤ 55) :
    s.pad L =
      { s with H := compress s.H (s.lastPadBlock L), buf := s.lastPadBlock L, curlen := 0, pend := s.pend + 1 } := by
  have hz : (55 + 64 - s.curlen.toNat) % 64 = 55 - s.curlen.toNat := by omega
  have hmark : s.curlen.toNat + (0x80 :: List.replicate (55 - s.curlen.toNat) (0x00 : Byte)).length = 56 := by
    rw [List.length_cons, List.length_replicate]; omega
  have hblock : overlay s.buf s.curlen.toNat (0x80 :: List.replicate (55 - s.curlen.toNat) 0x00 ++ lengthBytes L) =
      s.lastPadBlock L := by
    rw [overlay_append, hmark, State.lastPadBlock, if_pos h]
    refine lengthBlock_congr L fun j hj => ?_
    rw [State.firstPadBlock_getElem]
    exact s.markedBlock_getElem _ (by omega)
  rw [State.pad_eq, hz, ← List.cons_append, State.absorbAll_fill, hblock]
  rw [List.length_append, lengthBytes_length]
  omega

/-- A block without that room is filled with zeros, and the length field ends a second one (R174). -/
theorem State.pad_eq_of_ge {s : State} (L : Length) (h : 56 ≤ s.curlen.toNat) :
    s.pad L =
      { s with
        H := compress (compress s.H s.firstPadBlock) (s.lastPadBlock L)
        buf := s.lastPadBlock L
        curlen := 0
        pend := s.pend + 2 } := by
  have hlt := s.curlen.isLt
  have hz : (55 + 64 - s.curlen.toNat) % 64 = (63 - s.curlen.toNat) + 56 := by omega
  have hmark : s.curlen.toNat + (0x80 :: List.replicate (63 - s.curlen.toNat) (0x00 : Byte)).length = 64 := by
    rw [List.length_cons, List.length_replicate]; omega
  have hblock : overlay s.firstPadBlock 0 (List.replicate 56 0x00 ++ lengthBytes L) = s.lastPadBlock L := by
    rw [overlay_append, List.length_replicate, State.lastPadBlock, if_neg (by omega)]
    refine lengthBlock_congr L fun j hj => ?_
    rw [overlay_getElem, List.length_replicate, if_pos (by omega), Vector.getElem_replicate]
    exact List.getD_replicate _ (by omega)
  rw [State.pad_eq, hz, List.replicate_add, List.append_assoc, ← List.cons_append, State.absorbAll_append,
    State.absorbAll_fill s _ hmark, State.absorbAll_fill _ _ (by simp [lengthBytes_length]), ← hblock]
  rfl

/-- Settles O17: an accepted CLOSE pads, in one block or in two. -/
theorem closePadsAndCompresses : Obligations.ClosePadsAndCompresses := by
  intro s he hp
  have hclose := execClose_accepted s he (s.phase.acceptsData_iff.mpr hp)
  refine ⟨s.firstPadBlock, s.lastPadBlock s.length, fun j => s.firstPadBlock_getElem j.isLt,
    fun j => s.lastPadBlock_getElem s.length j.isLt, ?_⟩
  by_cases hroom : s.curlen.toNat ≤ 55
  · rw [State.pad_eq_of_le _ hroom] at hclose
    rw [if_pos hroom, if_pos hroom]
    exact hclose
  · rw [State.pad_eq_of_ge _ (by omega)] at hclose
    rw [if_neg hroom, if_neg hroom]
    exact hclose

/-! ## A FINALIZED block -/

/-- `t` is `s` but for `err`, `din` and the values read. -/
def State.KeepsDigest (s t : State) : Prop := t = { s with err := t.err, din := t.din, returned := t.returned }

theorem State.KeepsDigest.trans {s t u : State} (h : s.KeepsDigest t) (h' : t.KeepsDigest u) : s.KeepsDigest u :=
  Eq.trans h' (congrArg (fun v : State => { v with err := u.err, din := u.din, returned := u.returned }) h)

theorem State.KeepsDigest.phase {s t : State} (h : s.KeepsDigest t) : t.phase = s.phase := by
  rw [State.KeepsDigest] at h
  rw [h]

/-- Raising an error changes `err` only (R201). -/
theorem State.keepsDigest_raiseError (s : State) (c : ErrorCode) : s.KeepsDigest (s.raiseError c) := by
  rw [State.raiseError_eq]
  rfl

/-- A command other than INIT does at most raise an error in FINALIZED (R28, R177). -/
theorem exec_finalized {s : State} {i : Instr} (hp : s.phase = .finalized) (hi : i ≠ .init)
    (hwf : i.wellFormed = true) : ∃ t, exec i s = .next t ∧ s.KeepsDigest t := by
  have hdata := s.phase.not_acceptsData_iff.mpr (.inr hp)
  cases i with
  | nop => exact ⟨s, rfl, rfl⟩
  | init => exact absurd rfl hi
  | write nb =>
    have hnb : 1 ≤ nb ∧ nb ≤ 4 := of_decide_eq_true hwf
    by_cases he : s.err = .none
    · exact ⟨_, execWrite_invalidState s nb hnb he hdata, rfl⟩
    · exact ⟨_, execWrite_dropped s nb hnb he, rfl⟩
  | close =>
    by_cases he : s.err = .none
    · exact ⟨_, execClose_invalidState s he hdata, rfl⟩
    · exact ⟨_, execClose_dropped s he, rfl⟩

/-- An access that does not carry INIT leaves a FINALIZED block its digest (R177). -/
theorem perform_finalized {s : State} {a : PortAccess} (hp : s.phase = .finalized) (ha : ¬ a.Carries .init) :
    ∃ t, perform a s = .next t ∧ s.KeepsDigest t := by
  obtain ⟨-, e⟩ | ⟨-, -, e⟩ | ⟨-, -, -, e⟩ | ⟨-, -, -, e⟩ | ⟨hw, h0, i, hd, e⟩ := perform_cases a s
  · exact ⟨_, e, rfl⟩
  · exact ⟨_, e, rfl⟩
  · exact ⟨_, e, s.keepsDigest_raiseError _⟩
  · exact ⟨_, e, s.keepsDigest_raiseError _⟩
  · have hi : i ≠ .init := by
      rintro rfl
      exact ha ⟨hw, h0, hd⟩
    obtain ⟨t, ht, hkeeps⟩ := exec_finalized hp hi ((decodeIffEncode a.wdata i).mp hd).1
    exact ⟨t, e.trans ht, hkeeps⟩

/-- Settles O27, one access after another: each leaves the block FINALIZED. -/
theorem digestStaysUntilInit : Obligations.DigestStaysUntilInit := by
  intro s as hp has
  induction as generalizing s with
  | nil => exact ⟨s, rfl, rfl⟩
  | cons a as ih =>
    obtain ⟨t, ht, hst⟩ := perform_finalized hp (has a List.mem_cons_self)
    obtain ⟨u, hu, htu⟩ := ih t (hst.phase.trans hp) fun b hb => has b (List.mem_cons_of_mem a hb)
    exact ⟨u, (performAll_cons ht).trans hu, hst.trans htu⟩

/-! ## A whole message -/

/-- Settles O49: CLOSE pads what was fed to the state INIT leaves. -/
theorem hashOfAWholeMessage : Obligations.HashOfAWholeMessage := by
  rintro s as _ has rfl hS
  obtain ⟨t, hfed, ht⟩ := performAll_message has s hS
  obtain ⟨hlength, -, herr, -⟩ := t.pad_kept t.length
  have hlength0 : s.afterInit.length.toNat = 0 := rfl
  refine ⟨_, ht, hfed.pad_H rfl rfl rfl, rfl, herr.trans hfed.err, t.pad_curlen t.length, ?_⟩
  rw [hlength, hfed.length, hlength0, Nat.zero_add]

/-! ## The digest as bytes -/

/-- The 4 bytes of a word, most significant first (R178). -/
def wordBytes (w : Word) : List Byte := (List.range 4).map (byteOfWord w)

theorem digestBytes_eq (H : Vector Word 8) : digestBytes H = H.toList.flatMap wordBytes := rfl

theorem flatMap_wordBytes_length (ws : List Word) : (ws.flatMap wordBytes).length = 4 * ws.length := by
  induction ws with
  | nil => rfl
  | cons w ws ih =>
    rw [List.flatMap_cons, List.length_append, ih, List.length_cons, Nat.mul_succ, Nat.add_comm]
    rfl

/-- Byte `4i + j` of the words' bytes is byte `j` of word `i`. -/
theorem flatMap_wordBytes_getD (ws : List Word) {i j : Nat} (hi : i < ws.length) (hj : j < 4) :
    (ws.flatMap wordBytes).getD (4 * i + j) 0 = byteOfWord ws[i] j := by
  induction ws generalizing i with
  | nil => exact absurd hi (Nat.not_lt_zero i)
  | cons w ws ih =>
    have hw : (wordBytes w).length = 4 := rfl
    rw [List.flatMap_cons]
    cases i with
    | zero =>
      rw [List.getD_append _ _ _ _ (by omega)]
      simp [wordBytes, List.getD, hj]
    | succ i =>
      have hindex : 4 * (i + 1) + j - (wordBytes w).length = 4 * i + j := by omega
      rw [List.getD_append_right _ _ _ _ (by omega), hindex, ih (Nat.lt_of_succ_lt_succ hi), List.getElem_cons_succ]

/-- Settles O33: the bytes word by word, and the registers DIGEST0 to DIGEST7 (R56). -/
theorem digestBytesAreBigEndian : Obligations.DigestBytesAreBigEndian := by
  intro H
  have hwords : H.toList.length = 8 := H.length_toList
  refine ⟨?_, fun i j => ?_, busRead_digest⟩
  · rw [digestBytes_eq, flatMap_wordBytes_length, hwords]
  · rw [digestBytes_eq, flatMap_wordBytes_getD _ (by omega) j.isLt, Vector.getElem_toList]
    rfl

end Sys2Proof.Machine
end

section
/-! PROOFS. The control family: NOP as the host's next access (R190, R245), and INIT as the one command that clears an
error (R191). -/

namespace Sys2Proof.Machine

/-- While `busy` is 1 a step with any access but a STATUS read at the head is the core agent's (R245). -/
theorem step_access_held {s : State} {a : PortAccess} {rest : List HostEvent} (hh : s.host = .access a :: rest)
    (hp : s.pend ≠ 0) (ha : ¬ (a.we = false ∧ a.idx = 1)) : step s = .next s.coreStep := by
  rw [step_access_busy hh hp, if_neg fun h => ha (a.readsStatus_iff.mp h.1)]

/-- Settles O14: the all-zero word decodes to NOP, whose write to CTRL is performed when idle and is held, being no
STATUS read, when busy. -/
theorem nopChangesNothing : Obligations.NopChangesNothing := by
  obtain ⟨hdecode, -⟩ := writtenOutWordsDecode
  refine fun s => ⟨rfl, fun rest hh => ⟨fun hp => step_command hh hp hdecode, fun hp => ?_⟩⟩
  exact ⟨s.coreStep, step_access_held hh hp (by simp), rfl⟩

/-- With an error recorded, a command other than INIT changes nothing (R190, R204). -/
theorem exec_of_err {i : Instr} {s t : State} (hi : i ≠ .init) (he : s.err ≠ .none) (h : exec i s = .next t) :
    t = s := by
  cases i with
  | nop => cases h; rfl
  | init => exact absurd rfl hi
  | write nb =>
    replace h : execWrite nb s = .next t := h
    obtain ⟨-, e⟩ | ⟨hnb, -⟩ := execWrite_cases s nb
    · rw [e] at h
      cases h
    · rw [execWrite_dropped s nb hnb he] at h
      cases h
      rfl
  | close =>
    replace h : execClose s = .next t := h
    rw [execClose_dropped s he] at h
    cases h
    rfl

/-- Settles O15: what INIT leaves is `afterInit`, and any other command keeps a recorded error with the rest of the
state. -/
theorem initStartsANewDigest : Obligations.InitStartsANewDigest := by
  refine fun s => ⟨exec_init s, fun i t h he ht => ?_⟩
  by_contra hi
  rw [exec_of_err hi he h] at ht
  exact he ht

end Sys2Proof.Machine
end

section
/-! PROOFS. The exceptions family: the checks of a command and the error each raises (R202, R203), what an access does
while an error is recorded (R201, R204), and the steps of the machine (R205, R206). -/

namespace Sys2Proof.Machine

/-! ## A command on a block without an error -/

/-- The error a command raises on a block with none recorded, by the checks of R202 in their order. -/
def commandError (s : State) : Instr → ErrorCode
  | .nop => .none
  | .init => .none
  | .write nb =>
    if s.phase.acceptsData = false then .invalidState
    else if 2 ^ 64 - 1 < s.length.toNat + 8 * nb then .lengthOverflow
    else .none
  | .close => if s.phase.acceptsData = false then .invalidState else .none

section
variable {s : State}

/-- The phase check comes first (R202). -/
theorem commandError_of_not_acceptsData (hp : s.phase.acceptsData = false) (i : Instr) (hnop : i ≠ .nop)
    (hinit : i ≠ .init) : commandError s i = .invalidState := by
  cases i with
  | nop => exact absurd rfl hnop
  | init => exact absurd rfl hinit
  | write nb | close => exact if_pos hp

/-- The length check comes second, for WRITE only (R157, R202). -/
theorem commandError_of_overflow (hp : s.phase.acceptsData = true) {nb : Nat}
    (hl : 2 ^ 64 - 1 < s.length.toNat + 8 * nb) : commandError s (.write nb) = .lengthOverflow := by
  rw [commandError, if_neg (by simp [hp]), if_pos hl]

/-- A command that passes both checks raises nothing. -/
theorem commandError_of_passed (hp : s.phase.acceptsData = true) (i : Instr)
    (hl : ∀ nb, i = .write nb → s.length.toNat + 8 * nb ≤ 2 ^ 64 - 1) : commandError s i = .none := by
  cases i with
  | nop | init => rfl
  | write nb => rw [commandError, if_neg (by simp [hp]), if_neg (Nat.not_lt.mpr (hl nb rfl))]
  | close => rw [commandError, if_neg (by simp [hp])]

end

/-- `t` has the error `c` recorded, and is `s` in all else unless `c` is NONE (R201). -/
structure State.Records (s : State) (c : ErrorCode) (t : State) : Prop where
  err : t.err = c
  precise : c ≠ .none → t = { s with err := c }

theorem State.Records.of_err_none {s t : State} (h : t.err = .none) : s.Records .none t := ⟨h, nofun⟩

theorem execWrite_errorFree {s : State} {nb : Nat} (hnb : 1 ≤ nb ∧ nb ≤ 4) (he : s.err = .none) :
    ∃ t, execWrite nb s = .next t ∧ s.Records (commandError s (.write nb)) t := by
  obtain ⟨hnb', -⟩ | ⟨-, ⟨he', -⟩ | ⟨-, hp, e⟩ | ⟨-, hp, hl, e⟩ | ⟨-, hp, hl, e⟩⟩ := execWrite_cases s nb
  · exact absurd hnb hnb'
  · exact absurd he he'
  · rw [commandError_of_not_acceptsData hp (.write nb) nofun nofun]
    exact ⟨_, e, rfl, fun _ => rfl⟩
  · rw [commandError_of_overflow hp hl]
    exact ⟨_, e, rfl, fun _ => rfl⟩
  · obtain ⟨-, -, herr, -⟩ := s.absorbAll_kept (messageBytes s.din nb)
    rw [commandError_of_passed hp (.write nb) fun _ h => by cases h; exact hl]
    exact ⟨_, e, .of_err_none (herr.trans he)⟩

theorem execClose_errorFree {s : State} (he : s.err = .none) :
    ∃ t, execClose s = .next t ∧ s.Records (commandError s .close) t := by
  obtain ⟨he', -⟩ | ⟨-, hp, e⟩ | ⟨-, hp, e⟩ := execClose_cases s
  · exact absurd he he'
  · rw [commandError_of_not_acceptsData hp .close nofun nofun]
    exact ⟨_, e, rfl, fun _ => rfl⟩
  · obtain ⟨-, -, herr, -⟩ := s.pad_kept s.length
    rw [commandError_of_passed hp .close nofun]
    exact ⟨_, e, .of_err_none (herr.trans he)⟩

/-- On a block without an error a command records the error of its checks, and where there is one does nothing else
(R201, R202). -/
theorem exec_errorFree {i : Instr} {s : State} (hwf : i.wellFormed = true) (he : s.err = .none) :
    ∃ t, exec i s = .next t ∧ s.Records (commandError s i) t := by
  cases i with
  | nop => exact ⟨s, rfl, .of_err_none he⟩
  | init => exact ⟨s.afterInit, rfl, .of_err_none rfl⟩
  | write nb => exact execWrite_errorFree (of_decide_eq_true hwf) he
  | close => exact execClose_errorFree he

/-- A command whose checks fail records the error of the first that does, and changes nothing else. -/
theorem exec_of_commandError {i : Instr} {s : State} {c : ErrorCode} (hwf : i.wellFormed = true) (he : s.err = .none)
    (hc : commandError s i = c) (hne : c ≠ .none) : exec i s = .next { s with err := c } := by
  obtain ⟨t, ht, -, hprecise⟩ := exec_errorFree hwf he
  rw [hc] at hprecise
  rw [ht, hprecise hne]

/-! ## A command on a block with an error -/

/-- With an error recorded, a command other than INIT is dropped (R190, R204). -/
theorem exec_dropped {i : Instr} {s : State} (hwf : i.wellFormed = true) (hi : i ≠ .init) (he : s.err ≠ .none) :
    exec i s = .next s := by
  cases i with
  | nop => rfl
  | init => exact absurd rfl hi
  | write nb => exact execWrite_dropped s nb (of_decide_eq_true hwf) he
  | close => exact execClose_dropped s he

/-- Every well-formed command completes. -/
theorem exec_completes {i : Instr} (hwf : i.wellFormed = true) (s : State) : ∃ t, exec i s = .next t := by
  by_cases he : s.err = .none
  · obtain ⟨t, ht, -⟩ := exec_errorFree hwf he
    exact ⟨t, ht⟩
  · by_cases hi : i = .init
    · exact ⟨s.afterInit, hi ▸ exec_init s⟩
    · exact ⟨s, exec_dropped hwf hi he⟩

theorem wellFormed_of_decode {v : Word} {i : Instr} (h : decode v = .ok i) : i.wellFormed = true :=
  ((decodeIffEncode v i).mp h).1

/-! ## The order of the checks -/

/-- A write to CTRL of a word that is no command (R87). -/
theorem perform_of_illegalWord {a : PortAccess} (s : State) (hw : a.we = true) (h0 : a.idx = 0)
    (hv : ∀ i, decode a.wdata ≠ .ok i) :
    perform a s = .next { s with err := if s.err = .none then .illegalCmd else s.err } := by
  rw [perform_of_write s hw, h0, ← State.raiseError_eq]
  cases hd : decode a.wdata with
  | ok i => exact absurd hd (hv i)
  | error e => simp only [busWrite, command, hd, if_true]

/-- Settles O22: an illegal word; a command, by `commandError`; and a write to another index. -/
theorem checksInOrder : Obligations.ChecksInOrder := by
  intro v s
  refine ⟨fun hv => perform_of_illegalWord s rfl rfl hv, fun i hv => ?_, fun idx h0 => ?_⟩
  · have hwf := wellFormed_of_decode hv
    have hperform : perform { idx := 0, we := true, wdata := v } s = exec i s :=
      perform_of_carries (a := commandAccess v) ⟨rfl, rfl, hv⟩ s
    rw [hperform]
    refine ⟨?_, fun hnop hinit => ⟨exec_dropped hwf hinit, fun he hp => ?_, fun he hp => ⟨?_, fun hl => ?_⟩⟩⟩
    · rintro (rfl | rfl)
      · exact ⟨s, rfl, rfl⟩
      · exact ⟨s.afterInit, rfl, rfl⟩
    · exact exec_of_commandError hwf he
        (commandError_of_not_acceptsData (s.phase.not_acceptsData_iff.mpr hp) i hnop hinit) nofun
    · rintro nb rfl hl
      exact exec_of_commandError hwf he (commandError_of_overflow (s.phase.acceptsData_iff.mpr hp) hl) nofun
    · obtain ⟨t, ht, herr, -⟩ := exec_errorFree hwf he
      exact ⟨t, ht, herr.trans (commandError_of_passed (s.phase.acceptsData_iff.mpr hp) i hl)⟩
  · by_cases h2 : idx = 2
    · exact ⟨_, perform_of_dinWrite s rfl h2, .inl rfl⟩
    · refine ⟨_, perform_of_readOnlyWrite s rfl h0 h2, ?_⟩
      by_cases he : s.err = .none
      · exact .inr (if_pos he)
      · exact .inl (if_neg he)

/-! ## The causes of the error codes -/

/-- The words that are no command, by their fields (R203). -/
theorem forall_decode_ne_iff (v : Word) :
    (∀ i, decode v ≠ .ok i) ↔
      4 ≤ (v.extractLsb' 0 4).toNat ∨ v.extractLsb' 6 26 ≠ 0 ∨ (v.extractLsb' 0 4 ≠ 2 ∧ v.extractLsb' 4 2 ≠ 0) := by
  have h := not_congr (exists_decode_iff_formula v)
  simp only [rsvField, opField, nbm1Field] at h
  rw [← not_exists, h]
  have hop : ¬ (v.extractLsb' 0 4).toNat ≤ 3 ↔ 4 ≤ (v.extractLsb' 0 4).toNat := Nat.not_le
  tauto

theorem commandError_eq_invalidState_iff (s : State) (i : Instr) :
    commandError s i = .invalidState ↔ (i = .close ∨ ∃ nb, i = .write nb) ∧ s.phase.acceptsData = false := by
  cases i with
  | nop | init => simp [commandError]
  | write nb => dsimp only [commandError]; split_ifs with hp <;> simp [hp]
  | close => simp [commandError]

theorem commandError_eq_lengthOverflow_iff (s : State) (i : Instr) :
    commandError s i = .lengthOverflow ↔
      ∃ nb, i = .write nb ∧ s.phase.acceptsData = true ∧ 2 ^ 64 - 1 < s.length.toNat + 8 * nb := by
  cases i with
  | nop | init => simp [commandError]
  | close => dsimp only [commandError]; split_ifs <;> simp
  | write nb =>
    simp only [commandError, Instr.write.injEq, exists_eq_left']
    split_ifs with hp hl
    · simp [hp]
    · simp only [Bool.not_eq_false] at hp
      exact iff_of_true rfl ⟨hp, hl⟩
    · exact iff_of_false nofun fun h => hl h.2

/-- The other two codes are not a legal command's (R203). -/
theorem commandError_ne_illegalCmd_and_ne_accessError (s : State) (i : Instr) :
    commandError s i ≠ .illegalCmd ∧ commandError s i ≠ .accessError := by
  cases i with
  | nop | init => exact ⟨nofun, nofun⟩
  | write nb | close => dsimp only [commandError]; split_ifs <;> exact ⟨nofun, nofun⟩

/-- Settles O23, one kind of access after another: a command raises `commandError`, and every other kind has one fixed
outcome. -/
theorem errorCausesExact : Obligations.ErrorCausesExact := by
  intro a s t he h
  rw [← Phase.not_acceptsData_iff, ← Phase.acceptsData_iff, ← forall_decode_ne_iff]
  obtain ⟨hw, e⟩ | ⟨hw, h2, e⟩ | ⟨hw, h0, h2, e⟩ | ⟨hw, h0, ⟨d, hd⟩, e⟩ | ⟨hw, h0, i, hd, e⟩ := perform_cases a s <;>
    rw [e] at h
  · cases h
    simp [PortAccess.Carries, hw, he]
  · cases h
    simp [PortAccess.Carries, h2, he]
  · cases h
    have hcarries (j : Instr) : ¬ a.Carries j := fun h => h0 h.2.1
    have hidx : ¬ a.idx = 0#4 ∧ ¬ a.idx = 2#4 := ⟨h0, h2⟩
    simp [hcarries, hw, he, hidx]
  · cases h
    simp [PortAccess.Carries, hw, h0, hd, he]
  · obtain ⟨u, hu, herr, -⟩ := exec_errorFree (wellFormed_of_decode hd) he
    rw [hu] at h
    cases h
    have hcarries (j : Instr) : a.Carries j ↔ i = j := by simp [PortAccess.Carries, hw, h0, hd]
    obtain ⟨hillegal, haccess⟩ := commandError_ne_illegalCmd_and_ne_accessError s i
    simp only [hcarries, herr]
    refine ⟨commandError_eq_invalidState_iff s i, ?_, commandError_eq_lengthOverflow_iff s i, ?_⟩
    · simp [hillegal, hd]
    · simp [haccess, h0]

/-! ## An access while an error is recorded -/

/-- With an error recorded, an access that does not carry INIT changes `din` and the values read only (R201, R204). -/
theorem perform_of_err {a : PortAccess} {s : State} (ha : ¬ a.Carries .init) (he : s.err ≠ .none) :
    ∃ t, perform a s = .next t ∧ t.err = s.err ∧ s.KeepsDigest t := by
  obtain ⟨-, e⟩ | ⟨-, -, e⟩ | ⟨-, -, -, e⟩ | ⟨-, -, -, e⟩ | ⟨hw, h0, i, hd, e⟩ := perform_cases a s
  · exact ⟨_, e, rfl, rfl⟩
  · exact ⟨_, e, rfl, rfl⟩
  · exact ⟨_, e, (s.raiseError_err _).trans (if_neg he), s.keepsDigest_raiseError _⟩
  · exact ⟨_, e, (s.raiseError_err _).trans (if_neg he), s.keepsDigest_raiseError _⟩
  · have hi : i ≠ .init := by
      rintro rfl
      exact ha ⟨hw, h0, hd⟩
    exact ⟨s, e.trans (exec_dropped (wellFormed_of_decode hd) hi he), rfl, rfl⟩

/-- Only INIT changes a recorded error, and it clears it (R191, R206). -/
theorem perform_err_of_err {a : PortAccess} {s t : State} (he : s.err ≠ .none) (h : perform a s = .next t) :
    t.err = s.err ∨ (a.Carries .init ∧ t.err = .none) := by
  by_cases ha : a.Carries .init
  · rw [perform_of_carries ha, exec_init] at h
    cases h
    exact .inr ⟨ha, rfl⟩
  · obtain ⟨u, hu, herr, -⟩ := perform_of_err ha he
    rw [hu] at h
    cases h
    exact .inl herr

/-- An access that records an error changes nothing else (R201). -/
theorem perform_precise {a : PortAccess} {s t : State} (he : s.err = .none) (h : perform a s = .next t)
    (ht : t.err ≠ .none) : t = { s with err := t.err } := by
  obtain ⟨-, e⟩ | ⟨-, -, e⟩ | ⟨-, -, -, e⟩ | ⟨-, -, -, e⟩ | ⟨-, -, i, hd, e⟩ := perform_cases a s <;> rw [e] at h
  · cases h
    exact absurd he ht
  · cases h
    exact absurd he ht
  · cases h
    rw [State.raiseError_eq]
  · cases h
    rw [State.raiseError_eq]
  · obtain ⟨u, hu, herr, hprecise⟩ := exec_errorFree (wellFormed_of_decode hd) he
    rw [hu] at h
    cases h
    rw [← herr] at hprecise
    exact hprecise ht

/-- Settles O24: what would raise a second error is a word that is no command, or a write to an index other than CTRL
and DIN. -/
theorem errorsArePreciseAndFirstIsKept : Obligations.ErrorsArePreciseAndFirstIsKept := by
  intro a s t h
  refine ⟨fun he ht => perform_precise he h ht, fun he => perform_err_of_err he h, fun he hw h2 hv => ?_⟩
  by_cases h0 : a.idx = 0
  · rw [perform_of_illegalWord s hw h0 (hv h0), if_neg he] at h
    cases h
    rfl
  · rw [perform_of_readOnlyWrite s hw h0 h2, if_neg he] at h
    cases h
    rfl

/-- With an error recorded, accesses that do not carry INIT change `din` and the values read only (R204). -/
theorem performAll_of_err {as : List PortAccess} (has : ∀ a ∈ as, ¬ a.Carries .init) {s : State}
    (he : s.err ≠ .none) : ∃ t, performAll as s = .next t ∧ t.err = s.err ∧ s.KeepsDigest t := by
  induction as generalizing s with
  | nil => exact ⟨s, rfl, rfl, rfl⟩
  | cons a as ih =>
    obtain ⟨t, ht, hte, hst⟩ := perform_of_err (has a List.mem_cons_self) he
    obtain ⟨u, hu, hue, htu⟩ := ih (fun b hb => has b (List.mem_cons_of_mem a hb)) (hte ▸ he)
    exact ⟨u, (performAll_cons ht).trans hu, hue.trans hte, hst.trans htu⟩

/-- Settles O26, with `performAll_of_err` for a sequence of accesses. -/
theorem pendingErrorBlocksTheMessage : Obligations.PendingErrorBlocksTheMessage := by
  intro s he
  refine ⟨fun nb h1 h4 => execWrite_dropped s nb ⟨h1, h4⟩ he, execClose_dropped s he, dinWriteSetsDin s,
    fun idx v => perform_of_read s rfl, rfl, ⟨s.afterInit, rfl, rfl, rfl⟩, fun as has => ?_⟩
  obtain ⟨t, ht, herr, hkeeps⟩ := performAll_of_err has he
  rw [State.KeepsDigest, herr] at hkeeps
  exact ⟨t, ht, hkeeps⟩

/-! ## The steps of the machine -/

/-- Serving an access changes a recorded error only where `busy` is 0 and the access carries INIT (R206). -/
theorem serveAccess_err_of_err {a : PortAccess} {rest : List HostEvent} {s t : State} (he : s.err ≠ .none)
    (h : serveAccess a rest s = .next t) : t.err = s.err ∨ (s.pend = 0 ∧ a.Carries .init ∧ t.err = .none) := by
  obtain ⟨-, rfl⟩ | ⟨w, hidle, hp⟩ := serveAccess_cases h
  · exact .inl rfl
  · obtain herr | ⟨ha, herr⟩ := perform_err_of_err (s := { s with host := rest, waits := w }) he hp
    · exact .inl herr
    · have hread : ¬ a.readsStatus = true := by simp [PortAccess.readsStatus, ha.1]
      exact .inr ⟨hidle.resolve_right hread, ha, herr⟩

theorem statusRead_not_carries (i : Instr) : ¬ statusRead.Carries i := fun ⟨hw, _⟩ => nomatch hw

/-- A turn of the WAIT loop changes no recorded error. -/
theorem serveWait_err_of_err {rest : List HostEvent} {s t : State} (he : s.err ≠ .none)
    (h : serveWait rest s = .next t) : t.err = s.err := by
  obtain ⟨-, rfl⟩ | ⟨es, w, hp⟩ := serveWait_cases h
  · rfl
  · obtain herr | ⟨ha, -⟩ := perform_err_of_err (s := { s with host := es, waits := w }) he hp
    · exact herr
    · exact absurd ha (statusRead_not_carries .init)

theorem step_of_access {s : State} {a : PortAccess} {rest : List HostEvent} (hh : s.host = .access a :: rest) :
    step s = serveAccess a rest s := by
  simp only [step, hostStep, hh]

/-- Settles O25, event by event. -/
theorem onlyInitAndResetClearErr : Obligations.OnlyInitAndResetClearErr := by
  intro s t h he hne
  match hh : s.host with
  | [] =>
    by_cases hp : s.pend = 0
    · rw [step_idle hh hp] at h
      cases h
      exact absurd rfl hne
    · rw [step_drain hh hp] at h
      cases h
      exact absurd rfl hne
  | .access a :: rest =>
    obtain ⟨hp, ha, herr⟩ := (serveAccess_err_of_err he (step_of_access hh ▸ h)).resolve_left hne
    exact ⟨herr, .inr ⟨hp, rest, .inl ⟨a, rfl, ha⟩⟩⟩
  | .bridged A bits we v :: rest =>
    cases hb : bridgeAccess A bits we v with
    | none =>
      rw [step_bridged_refused hh hb] at h
      cases h
    | some a =>
      obtain ⟨hp, ha, herr⟩ := (serveAccess_err_of_err he (step_bridged hh hb ▸ h)).resolve_left hne
      exact ⟨herr, .inr ⟨hp, rest, .inr ⟨A, bits, we, v, a, rfl, hb, ha⟩⟩⟩
  | .waitIdle :: rest => exact absurd (serveWait_err_of_err he (step_wait hh ▸ h)) hne
  | .reset p :: rest =>
    rw [step_reset hh] at h
    cases h
    exact ⟨rfl, .inl ⟨p, rest, rfl⟩⟩

/-- Every access completes: no error and no command stops the block (R205). -/
theorem perform_completes (a : PortAccess) (s : State) : ∃ t, perform a s = .next t := by
  obtain ⟨-, e⟩ | ⟨-, -, e⟩ | ⟨-, -, -, e⟩ | ⟨-, -, -, e⟩ | ⟨-, -, i, hd, e⟩ := perform_cases a s
  · exact ⟨_, e⟩
  · exact ⟨_, e⟩
  · exact ⟨_, e⟩
  · exact ⟨_, e⟩
  · obtain ⟨t, ht⟩ := exec_completes (wellFormed_of_decode hd) s
    exact ⟨t, e.trans ht⟩

theorem serveAccess_completes (a : PortAccess) (rest : List HostEvent) (s : State) :
    ∃ t, serveAccess a rest s = .next t := by
  unfold serveAccess
  split_ifs
  · exact perform_completes _ _
  · exact perform_completes _ _
  · exact ⟨_, rfl⟩

theorem serveWait_completes (rest : List HostEvent) (s : State) : ∃ t, serveWait rest s = .next t := by
  unfold serveWait
  split_ifs
  · exact perform_completes _ _
  · exact perform_completes _ _
  · exact ⟨_, rfl⟩

/-- Settles O36, event by event. -/
theorem everyStepCompletes : Obligations.EveryStepCompletes := by
  intro s
  match hh : s.host with
  | [] =>
    by_cases hp : s.pend = 0
    · exact .inl ⟨s, step_idle hh hp⟩
    · exact .inl ⟨s.coreStep, step_drain hh hp⟩
  | .access a :: rest => exact .inl (step_of_access hh ▸ serveAccess_completes a rest s)
  | .bridged A bits we v :: rest =>
    by_cases hA : A % 4 = 0 ∧ bits = 32
    · obtain ⟨hA, rfl⟩ := hA
      exact .inl (step_bridged hh (bridgeAccess_aligned hA we v) ▸ serveAccess_completes _ rest s)
    · rw [not_and_or] at hA
      exact .inr ⟨step_bridged_refused hh (bridgeAccess_eq_none hA we v), A, bits, we, v, rest, rfl, hA⟩
  | .waitIdle :: rest => exact .inl (step_wait hh ▸ serveWait_completes rest s)
  | .reset p :: rest => exact .inl ⟨_, step_reset hh⟩

end Sys2Proof.Machine
end

section
/-! PROOFS. The reset and hazards family, part 1: the reset input (R240), and the hold of an access while the core
agent's compressions are outstanding (R39, R245, R246). -/

namespace Sys2Proof.Machine

/-- Settles O43: a step on the reset input sets the whole block, whatever it was doing. -/
theorem resetInputResetsEverything : Obligations.ResetInputResetsEverything := fun _ _ _ hh =>
  ⟨_, step_reset hh, rfl, rfl, rfl⟩

/-! ## Steps of the core agent in a row -/

/-- Steps of the core agent lower `pend` and change the timing, and nothing else (R39). -/
theorem State.coreStep_iterate (k : Nat) (s : State) :
    State.coreStep^[k] s =
      { s with pend := s.pend - k, waits := (State.coreStep^[k] s).waits, draws := s.draws + k } := by
  induction k with
  | zero => rfl
  | succ k ih =>
    rw [Function.iterate_succ_apply', State.coreStep, ih]
    rfl

theorem State.coreStep_iterate_pend (k : Nat) (s : State) : (State.coreStep^[k] s).pend = s.pend - k := by
  rw [State.coreStep_iterate]

theorem State.coreStep_iterate_draws (k : Nat) (s : State) : (State.coreStep^[k] s).draws = s.draws + k := by
  rw [State.coreStep_iterate]

theorem State.coreStep_iterate_host (k : Nat) (s : State) : (State.coreStep^[k] s).host = s.host := by
  rw [State.coreStep_iterate]

theorem State.coreStep_iterate_returned (k : Nat) (s : State) : (State.coreStep^[k] s).returned = s.returned := by
  rw [State.coreStep_iterate]

theorem State.coreStep_iterate_settled (k : Nat) (s : State) : (State.coreStep^[k] s).settled = s.settled := by
  rw [State.coreStep_iterate]
  rfl

/-- While each step of the machine is the core agent's, a run is the core agent's steps. -/
theorem run_eq_coreStep_iterate {k : Nat} {s : State}
    (h : ∀ j < k, step (State.coreStep^[j] s) = .next (State.coreStep^[j] s).coreStep) :
    Host.Core.run Sys2Proof.core k s = .next (State.coreStep^[k] s) := by
  induction k with
  | zero => rfl
  | succ k ih =>
    rw [run_add_of_run 1 (ih fun j hj => h j (Nat.lt_succ_of_lt hj)), run_one_of_step (h k (Nat.lt_succ_self k)),
      Function.iterate_succ_apply']

/-! ## When an access at the head is performed -/

/-- The next step performs the access `a` at the head of the host's list: `busy` is 0, or `a` is a STATUS read that the
free timing lets go first (R245, R246). -/
def State.Serves (s : State) (a : PortAccess) : Prop :=
  s.pend = 0 ∨ (a.readsStatus = true ∧ s.statusReadFirst = true)

section
variable {s : State} {a : PortAccess} {rest : List HostEvent} (hh : s.host = .access a :: rest)
include hh

/-- An access is performed on the state with itself off the list, and with at most one more wait counted. -/
theorem step_of_serves (h : s.Serves a) : ∃ w, step s = perform a { s with host := rest, waits := w } := by
  by_cases hp : s.pend = 0
  · exact ⟨s.waits, step_access hh hp⟩
  · exact ⟨s.waits + 1, (step_access_busy hh hp).trans (if_pos (h.resolve_left hp))⟩

/-- An access that is not performed waits for the core agent's step (R245). -/
theorem step_of_not_serves (h : ¬ s.Serves a) : step s = .next s.coreStep := by
  obtain ⟨hp, hread⟩ := not_or.mp h
  exact (step_access_busy hh hp).trans (if_neg hread)

/-- As long as the access is not performed, the run is the core agent's steps. -/
theorem run_of_not_serves {k : Nat} (h : ∀ j < k, ¬ (State.coreStep^[j] s).Serves a) :
    Host.Core.run Sys2Proof.core k s = .next (State.coreStep^[k] s) :=
  run_eq_coreStep_iterate fun j hj => step_of_not_serves ((s.coreStep_iterate_host j).trans hh) (h j hj)

/-- Every access is performed after at most `pend` steps of the core agent: then `busy` is 0 (R245). -/
theorem exists_run_serves :
    ∃ k ≤ s.pend, Host.Core.run Sys2Proof.core k s = .next (State.coreStep^[k] s) ∧ (State.coreStep^[k] s).Serves a := by
  classical
  have hidle : (State.coreStep^[s.pend] s).Serves a := .inl (by rw [State.coreStep_iterate_pend, Nat.sub_self])
  have hex : ∃ k, (State.coreStep^[k] s).Serves a := ⟨s.pend, hidle⟩
  exact ⟨Nat.find hex, Nat.find_min' hex hidle, run_of_not_serves hh fun j hj => Nat.find_min hex hj,
    Nat.find_spec hex⟩

end

/-! ## Held accesses -/

/-- An access other than a STATUS read is performed only while `busy` is 0 (R245). -/
theorem State.serves_iff_of_held {a : PortAccess} (ha : ¬ (a.we = false ∧ a.idx = 1)) (s : State) :
    s.Serves a ↔ s.pend = 0 :=
  or_iff_left fun h => ha (a.readsStatus_iff.mp h.1)

/-- Settles O37: before the `pend`-th step of the core agent `busy` is 1, and then it is 0. -/
theorem heldAccessIsPerformedAfterItsHold : Obligations.HeldAccessIsPerformedAfterItsHold := by
  intro s a rest hh ha
  have hrun {k : Nat} (hk : k ≤ s.pend) : Host.Core.run Sys2Proof.core k s = .next (State.coreStep^[k] s) :=
    run_of_not_serves hh fun j hj => by
      rw [State.serves_iff_of_held ha, State.coreStep_iterate_pend]
      omega
  have hpend : (State.coreStep^[s.pend] s).pend = 0 := by rw [State.coreStep_iterate_pend, Nat.sub_self]
  refine ⟨fun k hk => ⟨_, hrun hk, s.coreStep_iterate k⟩, _, hrun le_rfl, hpend, ?_⟩
  have hstep := step_access ((s.coreStep_iterate_host _).trans hh) hpend
  obtain ⟨t, ht⟩ := perform_completes a { State.coreStep^[s.pend] s with host := rest }
  exact (run_add_of_run 1 (hrun le_rfl)).trans ((run_one_of_step (hstep.trans ht)).trans ht.symm)

/-! ## STATUS reads -/

/-- A STATUS read performed returns STATUS and changes the host's side only (R54, R245). -/
theorem step_statusRead_of_serves {s : State} {w : Word} {rest : List HostEvent}
    (hh : s.host = .access { idx := 1, we := false, wdata := w } :: rest)
    (h : s.Serves { idx := 1, we := false, wdata := w }) :
    ∃ t, step s = .next t ∧ t.settled = s.settled ∧ t.host = rest ∧ t.pend = s.pend ∧
      t.returned = { idx := 1, data := s.status } :: s.returned := by
  obtain ⟨n, hstep⟩ := step_of_serves hh h
  exact ⟨_, hstep.trans (perform_of_read _ rfl), rfl, rfl, rfl, rfl⟩

theorem State.serves_statusRead_iff (s : State) (w : Word) :
    s.Serves { idx := 1, we := false, wdata := w } ↔ s.pend = 0 ∨ s.statusReadFirst = true :=
  or_congr_right (and_iff_right rfl)

/-- Settles O38: the step performs the read or is the core agent's, and the read waits for as many of those as
`exists_run_serves` says. -/
theorem statusReadIsNeverHeld : Obligations.StatusReadIsNeverHeld := by
  intro s w rest hh
  refine ⟨?_, ?_⟩
  · by_cases h : s.pend = 0 ∨ s.statusReadFirst = true
    · obtain ⟨t, ht, hset, hhost, hpend, hret⟩ := step_statusRead_of_serves hh ((s.serves_statusRead_iff w).mpr h)
      refine ⟨t, ht, hset, ?_⟩
      rw [if_pos h]
      exact ⟨hhost, hpend, s.status, hret, rfl, s.status_busy⟩
    · refine ⟨s.coreStep, step_of_not_serves hh (mt (s.serves_statusRead_iff w).mp h), rfl, ?_⟩
      rw [if_neg h]
      rfl
  · obtain ⟨k, hk, hrun, hserves⟩ := exists_run_serves hh
    obtain ⟨t, ht, hset, hhost, hpend, hret⟩ :=
      step_statusRead_of_serves ((s.coreStep_iterate_host k).trans hh) hserves
    refine ⟨k, _, t, hk, hrun, ?_, (State.serves_statusRead_iff _ w).mp hserves, ht,
      hset.trans (s.coreStep_iterate_settled k), hhost, hpend, ?_⟩
    · rw [State.coreStep_iterate_draws]
      exact s.coreStep_iterate k
    · rw [hret, State.coreStep_iterate_returned]

end Sys2Proof.Machine
end

section
/-! PROOFS. The reset and hazards family, part 2: which accesses start a compression, and BUSY along a run whose
accesses start none (R246). -/

namespace Sys2Proof.Machine

/-! ## The compressions one access starts -/

section
variable {s t : State} (hp : s.pend = 0)
include hp

/-- A WRITE starts a compression exactly when it is accepted and fills a block (R150, R152). -/
theorem execWrite_pend_ne_zero_iff {nb : Nat} (h : execWrite nb s = .next t) :
    t.pend ≠ 0 ↔ s.err = .none ∧ s.phase.acceptsData = true ∧ s.length.toNat + 8 * nb ≤ 2 ^ 64 - 1 ∧
      64 ≤ s.curlen.toNat + nb := by
  obtain ⟨-, e⟩ | ⟨-, ⟨he, e⟩ | ⟨-, hph, e⟩ | ⟨-, -, hl, e⟩ | ⟨he, hph, hl, e⟩⟩ := execWrite_cases s nb <;>
    rw [e] at h <;> cases h
  · simp [hp, he]
  · simp [hp, hph]
  · exact iff_of_false (not_not.mpr hp) fun ⟨_, _, hl', _⟩ => by omega
  · simp only [State.absorbAll_pend, messageBytes_length, hp, he, hph, hl, true_and]
    omega

/-- A CLOSE starts a compression exactly when it is accepted (R174). -/
theorem execClose_pend_ne_zero_iff (h : execClose s = .next t) :
    t.pend ≠ 0 ↔ s.err = .none ∧ s.phase.acceptsData = true := by
  obtain ⟨he, e⟩ | ⟨-, hph, e⟩ | ⟨he, hph, e⟩ := execClose_cases s <;> rw [e] at h <;> cases h
  · simp [hp, he]
  · simp [hp, hph]
  · refine iff_of_true ?_ ⟨he, hph⟩
    simp only [State.pad_pend]
    split <;> omega

/-- The commands that start a compression (R135, R246). -/
theorem exec_pend_ne_zero_iff {i : Instr} (h : exec i s = .next t) :
    t.pend ≠ 0 ↔ s.err = .none ∧ s.phase.acceptsData = true ∧
      (i = .close ∨ ∃ nb, i = .write nb ∧ s.length.toNat + 8 * nb ≤ 2 ^ 64 - 1 ∧ 64 ≤ s.curlen.toNat + nb) := by
  cases i with
  | nop => cases h; simp [hp]
  | init => cases h; simp [hp]
  | write nb => simp [execWrite_pend_ne_zero_iff hp h]
  | close => simp [execClose_pend_ne_zero_iff hp h]

/-- The accesses that start a compression: those that carry such a command. -/
theorem perform_pend_ne_zero_iff {a : PortAccess} (h : perform a s = .next t) :
    t.pend ≠ 0 ↔ s.err = .none ∧ s.phase.acceptsData = true ∧
      (a.Carries .close ∨ ∃ nb, a.Carries (.write nb) ∧ s.length.toNat + 8 * nb ≤ 2 ^ 64 - 1 ∧
        64 ≤ s.curlen.toNat + nb) := by
  obtain ⟨hw, e⟩ | ⟨-, h2, e⟩ | ⟨-, h0, -, e⟩ | ⟨-, -, ⟨d, hd⟩, e⟩ | ⟨hw, h0, i, hd, e⟩ := perform_cases a s <;>
    rw [e] at h
  · cases h
    simp [hp, PortAccess.Carries, hw]
  · cases h
    simp [hp, PortAccess.Carries, h2]
  · cases h
    have hcarries (j : Instr) : ¬ a.Carries j := fun hj => h0 hj.2.1
    simp [hp, hcarries]
  · cases h
    simp [hp, PortAccess.Carries, hd]
  · have hcarries (j : Instr) : a.Carries j ↔ i = j := by simp [PortAccess.Carries, hw, h0, hd]
    simp only [hcarries]
    exact exec_pend_ne_zero_iff hp h

end

/-! ## Accesses that together start no compression -/

/-- Accesses do not see what the host's list holds beyond them. -/
theorem performAll_with_host {as : List PortAccess} {s t : State} (es : List HostEvent)
    (h : performAll as s = .next t) : performAll as { s with host := es } = .next { t with host := es } := by
  induction as generalizing s with
  | nil => cases h; rfl
  | cons a as ih =>
    obtain ⟨u, hu, hrest⟩ := exists_perform_of_performAll_cons h
    exact (performAll_cons (perform_with_host es hu)).trans (ih hrest)

/-- Accesses never lower `pend` (R39). -/
theorem performAll_pend_le {as : List PortAccess} {s t : State} (h : performAll as s = .next t) :
    s.pend ≤ t.pend := by
  induction as generalizing s with
  | nil => cases h; exact le_rfl
  | cons a as ih =>
    obtain ⟨u, hu, hrest⟩ := exists_perform_of_performAll_cons h
    exact (perform_pend_le hu).trans (ih hrest)

/-- `t` has returned more values than `s`, and those that are of STATUS have BUSY 0. -/
def State.ReadsIdle (s t : State) : Prop :=
  ∃ reads, t.returned = reads ++ s.returned ∧ ∀ r ∈ reads, r.idx = 1 → r.data.getLsbD 0 = false

theorem State.ReadsIdle.of_returned_eq {s t : State} (h : t.returned = s.returned) : s.ReadsIdle t :=
  ⟨[], h, fun _ hr => absurd hr List.not_mem_nil⟩

theorem State.ReadsIdle.trans {s t u : State} (h : s.ReadsIdle t) (h' : t.ReadsIdle u) : s.ReadsIdle u := by
  obtain ⟨rs, hrs, hidle⟩ := h
  obtain ⟨rs', hrs', hidle'⟩ := h'
  refine ⟨rs' ++ rs, by rw [hrs', hrs, List.append_assoc], fun r hr => ?_⟩
  exact (List.mem_append.mp hr).elim (hidle' r) (hidle r)

/-- A STATUS read performed while `pend` is 0 returns BUSY 0 (R33). -/
theorem perform_readsIdle {a : PortAccess} {s t : State} (hp : s.pend = 0) (h : perform a s = .next t) :
    s.ReadsIdle t := by
  cases hw : a.we with
  | true => exact .of_returned_eq (perform_write_returned hw h)
  | false =>
    rw [perform_of_read s hw] at h
    cases h
    refine ⟨[{ idx := a.idx, data := busRead a.idx s }], rfl, fun r hr hidx => ?_⟩
    obtain rfl := List.mem_singleton.mp hr
    have hstatus : busRead a.idx s = s.status := by rw [show a.idx = 1 from hidx]; rfl
    simp only [hstatus, State.status_busy, State.busy, hp, ne_eq, not_true_eq_false, decide_false]

/-- A run on accesses that together start no compression keeps `pend` 0, and its STATUS reads return BUSY 0. -/
theorem run_pend_eq_zero_and_readsIdle (n : Nat) {s t u : State} {as : List PortAccess} (hp : s.pend = 0)
    (hh : s.host = as.map .access) (hu : performAll as s = .next u) (hup : u.pend = 0)
    (ht : Host.Core.run Sys2Proof.core n s = .next t) : t.pend = 0 ∧ s.ReadsIdle t := by
  induction n generalizing s u as with
  | zero => cases ht; exact ⟨hp, .of_returned_eq rfl⟩
  | succ n ih =>
    cases as with
    | nil => exact ih hp hh hu hup ((run_succ_of_step n (step_idle hh hp)).symm.trans ht)
    | cons a as =>
      obtain ⟨v, hv, hrest⟩ := exists_perform_of_performAll_cons hu
      have hstep : step s = .next { v with host := as.map .access } :=
        (step_access hh hp).trans (perform_with_host _ hv)
      have hvp : v.pend = 0 := Nat.le_zero.mp (hup ▸ performAll_pend_le hrest)
      obtain ⟨htp, hreads⟩ := ih (s := { v with host := as.map .access }) hvp rfl (performAll_with_host _ hrest) hup
        ((run_succ_of_step n hstep).symm.trans ht)
      exact ⟨htp, (perform_readsIdle hp hv).trans hreads⟩

/-- Settles O40. -/
theorem busyStaysZero : Obligations.BusyStaysZero := by
  refine ⟨fun a s t hp h => ?_, fun n s t u as hp hh hu hup ht => run_pend_eq_zero_and_readsIdle n hp hh hu hup ht⟩
  rw [← Phase.acceptsData_iff]
  exact ⟨perform_pend_ne_zero_iff hp h, t.status_busy⟩

end Sys2Proof.Machine
end

section
/-! PROOFS. The reset and hazards family, part 3: an access does not see the timing, so a run with any timing leaves
what the accesses one after another leave (R247, R248). -/

namespace Sys2Proof.Machine

/-! ## Absorbing bytes, apart from timing -/

theorem State.absorb_settled (s : State) (b : Byte) : (s.settled.absorb b).settled = (s.absorb b).settled := by
  by_cases hfull : s.curlen.toNat = 63
  · rw [State.absorb_full b hfull, State.absorb_full (s := s.settled) b hfull]
    rfl
  · have hopen : s.curlen.toNat + 1 < 64 := by have := s.curlen.isLt; omega
    rw [State.absorb_open b hopen, State.absorb_open (s := s.settled) b hopen]
    rfl

theorem State.absorbAll_settled (s : State) (bs : List Byte) :
    (s.settled.absorbAll bs).settled = (s.absorbAll bs).settled := by
  induction bs generalizing s with
  | nil => rfl
  | cons b bs ih =>
    calc ((s.settled.absorb b).absorbAll bs).settled
      _ = ((s.settled.absorb b).settled.absorbAll bs).settled := (ih _).symm
      _ = ((s.absorb b).settled.absorbAll bs).settled := by rw [State.absorb_settled]
      _ = ((s.absorb b).absorbAll bs).settled := ih _

theorem State.pad_settled (s : State) (L : Length) : (s.settled.pad L).settled = (s.pad L).settled := by
  rw [State.pad_eq, State.pad_eq]
  exact s.absorbAll_settled _

/-! ## Commands and accesses, apart from timing -/

/-- `f` does to the settled state what it does to the state, apart from timing. -/
def RespectsSettled (f : State → Host.Outcome State Fault Refusal) : Prop :=
  ∀ s t : State, f s = .next t → ∃ u, f s.settled = .next u ∧ u.settled = t.settled

theorem execWrite_respectsSettled (nb : Nat) : RespectsSettled (execWrite nb) := by
  intro s t h
  obtain ⟨-, e⟩ | ⟨hnb, ⟨he, e⟩ | ⟨he, hp, e⟩ | ⟨he, hp, hl, e⟩ | ⟨he, hp, hl, e⟩⟩ := execWrite_cases s nb <;>
    rw [e] at h <;> cases h
  · exact ⟨_, execWrite_dropped s.settled nb hnb he, rfl⟩
  · exact ⟨_, execWrite_invalidState s.settled nb hnb he hp, rfl⟩
  · exact ⟨_, execWrite_lengthOverflow s.settled nb hnb he hp hl, rfl⟩
  · refine ⟨_, execWrite_accepted s.settled nb hnb he hp hl, ?_⟩
    exact congrArg (fun u : State => { u with length := s.length + BitVec.ofNat 64 (8 * nb), phase := .accumulating })
      (s.absorbAll_settled (messageBytes s.din nb))

theorem execClose_respectsSettled : RespectsSettled execClose := by
  intro s t h
  obtain ⟨he, e⟩ | ⟨he, hp, e⟩ | ⟨he, hp, e⟩ := execClose_cases s <;> rw [e] at h <;> cases h
  · exact ⟨_, execClose_dropped s.settled he, rfl⟩
  · exact ⟨_, execClose_invalidState s.settled he hp, rfl⟩
  · refine ⟨_, execClose_accepted s.settled he hp, ?_⟩
    exact congrArg (fun u : State => { u with phase := .finalized }) (s.pad_settled s.length)

theorem exec_respectsSettled (i : Instr) : RespectsSettled (exec i) := by
  cases i with
  | nop => intro s t h; cases h; exact ⟨_, rfl, rfl⟩
  | init => intro s t h; cases h; exact ⟨_, rfl, rfl⟩
  | write nb => exact execWrite_respectsSettled nb
  | close => exact execClose_respectsSettled

theorem perform_respectsSettled (a : PortAccess) : RespectsSettled (perform a) := by
  intro s t h
  obtain ⟨hw, e⟩ | ⟨hw, h2, e⟩ | ⟨hw, h0, h2, e⟩ | ⟨hw, h0, ⟨d, hd⟩, e⟩ | ⟨hw, h0, i, hd, e⟩ := perform_cases a s <;>
    rw [e] at h
  · cases h
    exact ⟨_, perform_of_read s.settled hw, rfl⟩
  · cases h
    exact ⟨_, perform_of_dinWrite s.settled hw h2, rfl⟩
  · cases h
    rw [State.raiseError_eq]
    exact ⟨_, perform_of_readOnlyWrite s.settled hw h0 h2, rfl⟩
  · cases h
    rw [State.raiseError_eq]
    exact ⟨_, perform_of_illegalWord s.settled hw h0 (fun i hi => by rw [hd] at hi; cases hi), rfl⟩
  · rw [perform_of_carries ⟨hw, h0, hd⟩]
    exact exec_respectsSettled i s t h

/-! ## Reads, apart from timing -/

/-- BUSY is the one bit of STATUS that timing changes (R33, R246). -/
theorem State.status_settled (s : State) : s.settled.status &&& 0xFFFFFFFE = s.status &&& 0xFFFFFFFE := by
  apply BitVec.eq_of_getLsbD_eq
  intro i hi
  by_cases h0 : i = 0
  · subst h0
    simp
  · rw [BitVec.getLsbD_and, BitVec.getLsbD_and, State.status_getLsbD _ i hi, State.status_getLsbD _ i hi, if_neg h0,
      if_neg h0]
    rfl

/-- A read's result apart from timing does not depend on the timing (R248). -/
theorem readResult_settled (idx : RegIndex) (s : State) :
    ReadResult.settled { idx := idx, data := busRead idx s.settled } =
      ReadResult.settled { idx := idx, data := busRead idx s } := by
  by_cases h1 : idx = 1
  · subst h1
    exact congrArg (ReadResult.mk 1) s.status_settled
  · have hdata : busRead idx s.settled = busRead idx s := by
      unfold busRead
      rw [if_neg h1, if_neg h1]
      rfl
    rw [hdata]

/-! ## Runs, apart from timing -/

/-- Two states with the same block and the same values read, apart from timing. -/
structure State.SameButTiming (s t : State) : Prop where
  settled : s.settled = t.settled
  returned : s.returned.map ReadResult.settled = t.returned.map ReadResult.settled

/-- An access keeps two states the same apart from timing. -/
theorem State.SameButTiming.perform {a : PortAccess} {s t s' t' : State} (h : s.SameButTiming t)
    (hs : perform a s = .next s') (ht : perform a t = .next t') : s'.SameButTiming t' where
  settled := by
    obtain ⟨u, hu, hus⟩ := perform_respectsSettled a s s' hs
    obtain ⟨v, hv, hvt⟩ := perform_respectsSettled a t t' ht
    rw [h.settled, hv] at hu
    cases hu
    exact hus.symm.trans hvt
  returned := by
    cases hw : a.we with
    | true => rw [perform_write_returned hw hs, perform_write_returned hw ht, h.returned]
    | false =>
      rw [perform_of_read s hw] at hs
      rw [perform_of_read t hw] at ht
      cases hs
      cases ht
      rw [List.map_cons, List.map_cons, h.returned, ← readResult_settled a.idx s, h.settled, readResult_settled]

/-- An access leaves the host's list (R64). -/
theorem perform_host {a : PortAccess} {s t : State} (h : perform a s = .next t) : t.host = s.host := by
  have hself : perform a s = .next { t with host := s.host } := perform_with_host s.host h
  have hhost := congrArg State.host (Host.Outcome.next.inj (h.symm.trans hself))
  exact hhost

/-- With no access left, the core agent finishes its compressions (R39, R215). -/
theorem run_drain {s : State} (hh : s.host = []) :
    Host.Core.run Sys2Proof.core s.pend s = .next (State.coreStep^[s.pend] s) :=
  run_eq_coreStep_iterate fun j hj => step_drain ((s.coreStep_iterate_host j).trans hh) (by
    rw [State.coreStep_iterate_pend]
    omega)

/-- The access at the head of the machine's list is performed after some steps, and leaves the machine the same apart
from timing as it leaves a block without timing (R245, R248). -/
theorem exists_run_perform {m s s' : State} {a : PortAccess} {rest : List HostEvent}
    (hh : m.host = .access a :: rest) (h : m.SameButTiming s) (hs : perform a s = .next s') :
    ∃ n m', Host.Core.run Sys2Proof.core n m = .next m' ∧ m'.host = rest ∧ m'.SameButTiming s' := by
  obtain ⟨k, -, hrun, hserves⟩ := exists_run_serves hh
  obtain ⟨w, hstep⟩ := step_of_serves ((m.coreStep_iterate_host k).trans hh) hserves
  obtain ⟨m', hm'⟩ := perform_completes a { State.coreStep^[k] m with host := rest, waits := w }
  refine ⟨k + 1, m', (run_add_of_run 1 hrun).trans (run_one_of_step (hstep.trans hm')), perform_host hm', ?_⟩
  refine State.SameButTiming.perform ⟨?_, ?_⟩ hm' hs
  · exact (m.coreStep_iterate_settled k).trans h.settled
  · simp only [State.coreStep_iterate_returned, h.returned]

/-- The machine performs a host's accesses to their end, and leaves what they leave without timing. -/
theorem exists_run_performAll (as : List PortAccess) {m s : State} (hh : m.host = as.map .access)
    (h : m.SameButTiming s) :
    ∃ u t n, performAll as s = .next u ∧ Host.Core.run Sys2Proof.core n m = .next t ∧ t.host = [] ∧ t.pend = 0 ∧
      t.SameButTiming u := by
  induction as generalizing m s with
  | nil =>
    refine ⟨s, _, m.pend, rfl, run_drain hh, (m.coreStep_iterate_host _).trans hh, ?_, ?_, ?_⟩
    · rw [State.coreStep_iterate_pend, Nat.sub_self]
    · exact (m.coreStep_iterate_settled _).trans h.settled
    · rw [State.coreStep_iterate_returned, h.returned]
  | cons a as ih =>
    obtain ⟨s', hs'⟩ := perform_completes a s
    obtain ⟨n, m', hrun, hhost, h'⟩ := exists_run_perform hh h hs'
    obtain ⟨u, t, k, hu, ht, hdone⟩ := ih hhost h'
    exact ⟨u, t, n + k, (performAll_cons hs').trans hu, (run_add_of_run k hrun).trans ht, hdone⟩

/-- Settles O41: the machine and the block without timing start from the same state. -/
theorem timingAffectsOnlyBusy : Obligations.TimingAffectsOnlyBusy := by
  intro s as hh
  obtain ⟨u, t, n, hu, ht, hhost, hpend, hsame⟩ := exists_run_performAll as hh ⟨rfl, rfl⟩
  exact ⟨u, t, n, hu, ht, hhost, hpend, hsame.settled, hsame.returned⟩

end Sys2Proof.Machine
end

section
/-! PROOFS. The reset and hazards family, part 4: between INIT and CLOSE an access feeds the message or records an
error, so that FINALIZED vouches for the digest (R204, R242). -/

namespace Sys2Proof.Machine

section
variable {a : PortAccess} {s t : State} (hinit : ¬ a.Carries .init) (hclose : ¬ a.Carries .close)
  (h : perform a s = .next t)
include hinit hclose h

/-- An access other than INIT and CLOSE that leaves no error recorded feeds. -/
theorem feeds_of_perform (ht : t.err = .none) : a.Feeds := by
  have raised {c : ErrorCode} (hc : c ≠ .none) : (s.raiseError c).err ≠ .none := by
    rw [State.raiseError_err]
    split <;> assumption
  obtain ⟨hw, -⟩ | ⟨-, h2, -⟩ | ⟨-, -, -, e⟩ | ⟨-, -, -, e⟩ | ⟨hw, h0, i, hd, -⟩ := perform_cases a s
  · exact .inl hw
  · exact .inr (.inl h2)
  · cases e.symm.trans h
    exact absurd ht (raised nofun)
  · cases e.symm.trans h
    exact absurd ht (raised nofun)
  · have hcarries : a.Carries i := ⟨hw, h0, hd⟩
    cases i with
    | nop => exact .inr (.inr (.inl hcarries))
    | init => exact absurd hcarries hinit
    | write nb => exact .inr (.inr (.inr ⟨nb, hcarries⟩))
    | close => exact absurd hcarries hclose

/-- An access other than INIT and CLOSE leaves a block that takes message bytes taking them (R28). -/
theorem perform_keeps_acceptsData (hp : s.phase.acceptsData = true) : t.phase.acceptsData = true := by
  obtain ⟨-, e⟩ | ⟨-, -, e⟩ | ⟨-, -, -, e⟩ | ⟨-, -, -, e⟩ | ⟨hw, h0, i, hd, e⟩ := perform_cases a s <;>
    rw [e] at h
  · cases h; exact hp
  · cases h; exact hp
  · cases h; rwa [State.raiseError_phase]
  · cases h; rwa [State.raiseError_phase]
  · have hcarries : a.Carries i := ⟨hw, h0, hd⟩
    cases i with
    | nop => cases h; exact hp
    | init => exact absurd hcarries hinit
    | write nb =>
      replace h : execWrite nb s = .next t := h
      obtain ⟨-, e⟩ | ⟨-, ⟨-, e⟩ | ⟨-, -, e⟩ | ⟨-, -, -, e⟩ | ⟨-, -, -, e⟩⟩ := execWrite_cases s nb <;>
        cases e.symm.trans h
      · exact hp
      · exact hp
      · exact hp
      · rfl
    | close => exact absurd hcarries hclose

end

section
variable {as : List PortAccess} (has : ∀ a ∈ as, ¬ a.Carries .init ∧ ¬ a.Carries .close) {s t : State}
  (h : performAll as s = .next t)
include has h

/-- Accesses other than INIT and CLOSE that leave no error recorded all feed: an error recorded on the way would have
stayed (R201, R204). -/
theorem feeds_of_performAll (ht : t.err = .none) : ∀ a ∈ as, a.Feeds := by
  induction as generalizing s with
  | nil => exact fun a ha => absurd ha List.not_mem_nil
  | cons a as ih =>
    obtain ⟨⟨hinit, hclose⟩, has⟩ := List.forall_mem_cons.mp has
    obtain ⟨u, hu, hrest⟩ := exists_perform_of_performAll_cons h
    have hfeed := ih has hrest
    obtain ⟨hue, -⟩ := fed_of_performAll hfeed hrest ht
    exact List.forall_mem_cons.mpr ⟨feeds_of_perform hinit hclose hu hue, hfeed⟩

theorem performAll_keeps_acceptsData (hp : s.phase.acceptsData = true) : t.phase.acceptsData = true := by
  induction as generalizing s with
  | nil => cases h; exact hp
  | cons a as ih =>
    obtain ⟨⟨hinit, hclose⟩, has⟩ := List.forall_mem_cons.mp has
    obtain ⟨u, hu, hrest⟩ := exists_perform_of_performAll_cons h
    exact ih has hrest (perform_keeps_acceptsData hinit hclose hu hp)

end

/-- Every sequence of accesses completes (R205). -/
theorem performAll_completes (as : List PortAccess) (s : State) : ∃ t, performAll as s = .next t := by
  induction as generalizing s with
  | nil => exact ⟨s, rfl⟩
  | cons a as ih =>
    obtain ⟨t, ht⟩ := perform_completes a s
    obtain ⟨u, hu⟩ := ih t
    exact ⟨u, (performAll_cons ht).trans hu⟩

/-- A CLOSE while an error is recorded is dropped, so the block is left as the accesses after INIT left it (R204). -/
theorem performAll_init_close_of_err {as : List PortAccess} {s t : State}
    (h : performAll as s.afterInit = .next t) (he : t.err ≠ .none) :
    performAll (commandAccess (encode .init) :: as ++ [commandAccess (encode .close)]) s = .next t := by
  have hinit : perform (commandAccess (encode .init)) s = .next s.afterInit :=
    perform_of_carries (commandAccess_encode_carries rfl) s
  have hclose : perform (commandAccess (encode .close)) t = .next t :=
    (perform_of_carries (commandAccess_encode_carries rfl) t).trans (execClose_dropped t he)
  rw [List.cons_append, performAll_cons hinit, performAll_append as _ h, performAll_cons hclose]
  rfl

/-- Settles O50: without an error the accesses feed a whole message, no longer than `length` can count; with one, CLOSE
is dropped in a phase that still takes message bytes. -/
theorem finalizedMeansTheDigest : Obligations.FinalizedMeansTheDigest := by
  intro s as has
  obtain ⟨u, hu⟩ := performAll_completes as s.afterInit
  by_cases he : u.err = .none
  · have hfeed := feeds_of_performAll has hu he
    obtain ⟨-, hfed⟩ := fed_of_performAll hfeed hu he
    have hlength : u.length.toNat = 0 + 8 * (fedBytes s.din as).length := hfed.length
    obtain ⟨t, ht, hH, hphase, hte, -, hlen⟩ := hashOfAWholeMessage s as _ hfeed rfl
      (by have := u.length.isLt; omega)
    exact ⟨t, ht, iff_of_true hphase hte, fun _ => ⟨hH, hlen⟩⟩
  · have hphase : u.phase ≠ .finalized := by
      intro hfin
      have hdata := performAll_keeps_acceptsData has hu rfl
      rw [hfin] at hdata
      cases hdata
    exact ⟨u, performAll_init_close_of_err hu he, iff_of_false hphase he, fun hfin => absurd hfin hphase⟩

end Sys2Proof.Machine
end
